-- ==== Sys2Proof/Word.lean ====
section
/-! DEFINITION. The word types of the RDT256 engine (spec/00_scope.md R6, R9) and the two small records the spec's
register groups use. Arithmetic on these types is the library's: `+` and `*` on `BitVec 64` are modulo 2^64 (R9). -/

namespace Sys2Proof

/-- `u64` of R9: an unsigned 64-bit word. -/
abbrev Word := BitVec 64

/-- The 32-bit word of the hash unit (R119) and of the 32-bit length registers (R23). -/
abbrev Word32 := BitVec 32

/-- One byte of a byte string (R8). -/
abbrev Byte := BitVec 8

/-- A byte string: `B[0]` is the head (R8). -/
abbrev Bytes := List Byte

/-- Four like things, indexed 0 to 3: `K[0..3]`, `PD[0..3]`, `T[0..3]`, `L[0..3]`, `RES[0..3]`, one row of `PERM` (R6, R15). -/
structure Quad (α : Type) where
  q0 : α
  q1 : α
  q2 : α
  q3 : α
  deriving DecidableEq, Repr

/-- The 128-bit value `V[1]·2^64 + V[0]`: `lo` is `V[0]`, `hi` is `V[1]` (R17). -/
structure Counter where
  lo : Word
  hi : Word
  deriving DecidableEq, Repr

/-- The five operand registers `ARG[0..4]` (R24). -/
structure ArgFile where
  a0 : Word
  a1 : Word
  a2 : Word
  a3 : Word
  a4 : Word
  deriving DecidableEq, Repr

/-- A 32-byte string: what the hash unit returns, and what a seed is (R100, R118). -/
abbrev Digest := Vector Byte 32

end Sys2Proof
end

