-- ==== Sys2Proof/Syntax.lean ====
section
/-! DEFINITION. The eight commands of the engine: one constructor per row of spec/opcode_table.json
(spec/30_encoding.md R53). A constructor's arguments are the fields its row uses; every other operand is implicit (R51). -/

namespace Sys2Proof

/-- A command of `RDT256-CMD` version 1. -/
inductive Instr where
  /-- INSTANTIATE, opcode 0x01 (R90). -/
  | instantiate
  /-- RESEED, opcode 0x02 (R91). -/
  | reseed
  /-- GENERATE, opcode 0x03 (R92): `ov` says that an output buffer is present, `pr` is the advisory
  `prediction_resistance` flag, `len` the number of output bytes. -/
  | generate (ov pr : Bool) (len : Nat)
  /-- NEXT_U64, opcode 0x04 (R93). -/
  | nextU64
  /-- ZEROIZE, opcode 0x05 (R94). -/
  | zeroize
  /-- MIX, opcode 0x08 (R66). -/
  | mix
  /-- EXTRACT, opcode 0x10 (R111): `dv` says that the data buffer is present, `ov` that the output buffer is. -/
  | extract (dv ov : Bool)
  /-- EXTRACT_U64, opcode 0x11 (R112). -/
  | extractU64 (dv : Bool)
  deriving DecidableEq, Repr

end Sys2Proof
end

