-- ==== Sys2Proof/Decode.lean ====
section
/-! DEFINITION. The decoder and the encoder of the 64-bit command word (spec/30_encoding.md R50 to R55). -/

namespace Sys2Proof

/-- One row of the opcode table of R53: `code` is its match word. -/
structure OpcodeRow where
  mnemonic : String
  code : Word
  mask : Word
  deriving DecidableEq, Repr

/-- Why a word is an illegal command (R54). -/
inductive DecodeError where
  /-- The opcode field names no row of the table. -/
  | unknownOpcode (opc : Byte)
  /-- The opcode field names a row, and a field that this command does not use is not 0. -/
  | unusedFieldSet (mnemonic : String)
  deriving DecidableEq, Repr

/-- What the decoder answers for a word: a command with its fields, or an illegal word (R52). -/
inductive Decoded where
  | command (i : Instr)
  | illegal (e : DecodeError)
  deriving DecidableEq, Repr

def rowInstantiate : OpcodeRow := ⟨"INSTANTIATE", 0x0100000000000000, 0xFFFFFFFFFFFFFFFF⟩
def rowReseed : OpcodeRow := ⟨"RESEED", 0x0200000000000000, 0xFFFFFFFFFFFFFFFF⟩
def rowGenerate : OpcodeRow := ⟨"GENERATE", 0x0300000000000000, 0xFFFCFFFF00000000⟩
def rowNextU64 : OpcodeRow := ⟨"NEXT_U64", 0x0400000000000000, 0xFFFFFFFFFFFFFFFF⟩
def rowZeroize : OpcodeRow := ⟨"ZEROIZE", 0x0500000000000000, 0xFFFFFFFFFFFFFFFF⟩
def rowMix : OpcodeRow := ⟨"MIX", 0x0800000000000000, 0xFFFFFFFFFFFFFFFF⟩
def rowExtract : OpcodeRow := ⟨"EXTRACT", 0x1000000000000000, 0xFFF9FFFFFFFFFFFF⟩
def rowExtractU64 : OpcodeRow := ⟨"EXTRACT_U64", 0x1100000000000000, 0xFFFBFFFFFFFFFFFF⟩

/-- The opcode table of R53. -/
def opcodeRows : List OpcodeRow :=
  [rowInstantiate, rowReseed, rowGenerate, rowNextU64, rowZeroize, rowMix, rowExtract, rowExtractU64]

/-- `(w AND mask) = match` (R52). -/
def OpcodeRow.hits (r : OpcodeRow) (w : Word) : Bool := (w &&& r.mask) == r.code

/-- The `OPC` field, bits 63:56. -/
def opcField (w : Word) : Byte := w.extractLsb' 56 8

/-- The `DV` field, bit 50. -/
def dvField (w : Word) : Bool := w.getLsbD 50

/-- The `OV` field, bit 49. -/
def ovField (w : Word) : Bool := w.getLsbD 49

/-- The `PR` field, bit 48. -/
def prField (w : Word) : Bool := w.getLsbD 48

/-- The `LEN` field, bits 31:0, an unsigned byte count (R51). -/
def lenField (w : Word) : Nat := (w.extractLsb' 0 32).toNat

/-- The name of the reason why a word that no row matches is illegal (R54). -/
def rejection (w : Word) : DecodeError :=
  match opcodeRows.find? (fun r => opcField r.code == opcField w) with
  | some r => .unusedFieldSet r.mnemonic
  | none => .unknownOpcode (opcField w)

/-- The decoder: total on all 2^64 words (R52). -/
def decodeWord (w : Word) : Decoded :=
  if rowInstantiate.hits w then .command .instantiate
  else if rowReseed.hits w then .command .reseed
  else if rowGenerate.hits w then .command (.generate (ovField w) (prField w) (lenField w))
  else if rowNextU64.hits w then .command .nextU64
  else if rowZeroize.hits w then .command .zeroize
  else if rowMix.hits w then .command .mix
  else if rowExtract.hits w then .command (.extract (dvField w) (ovField w))
  else if rowExtractU64.hits w then .command (.extractU64 (dvField w))
  else .illegal (rejection w)

/-- The command the decoder answers, if any. -/
def Decoded.toOption : Decoded → Option Instr
  | .command i => some i
  | .illegal _ => none

/-- The instruction the decoder reads from an instruction whose bits are `w`, of which the table gives `nbits`: the word
as the host writes it to `CMD` (one 64-bit word, R22; every command is 64 bits long, R55). -/
def decodeTableWord (nbits w : Nat) : Option Instr :=
  (decodeWord (BitVec.ofNat 64 (w % 2 ^ nbits))).toOption

/-! ## The encoder -/

/-- The row of R53 a command belongs to. -/
def Instr.row : Instr → OpcodeRow
  | .instantiate => rowInstantiate
  | .reseed => rowReseed
  | .generate _ _ _ => rowGenerate
  | .nextU64 => rowNextU64
  | .zeroize => rowZeroize
  | .mix => rowMix
  | .extract _ _ => rowExtract
  | .extractU64 _ => rowExtractU64

/-- A single-bit field at position `n`. -/
def bitField (b : Bool) (n : Nat) : Word := if b then 1#64 <<< n else 0#64

/-- The word of a command (R50, R53; the sums of R56 are disjoint fields). -/
def encode : Instr → Word
  | .instantiate => rowInstantiate.code
  | .reseed => rowReseed.code
  | .generate ov pr len => rowGenerate.code ||| bitField pr 48 ||| bitField ov 49 ||| BitVec.ofNat 64 len
  | .nextU64 => rowNextU64.code
  | .zeroize => rowZeroize.code
  | .mix => rowMix.code
  | .extract dv ov => rowExtract.code ||| bitField dv 50 ||| bitField ov 49
  | .extractU64 dv => rowExtractU64.code ||| bitField dv 50

end Sys2Proof
end

