-- ==== Sys2Proof/Config.lean ====
section
/-! DEFINITION. What is fixed for the life of one engine (spec/00_scope.md R5 to R7, R32): the source's constants, the
record `Cfg` of everything the source leaves open, and the free values of the model. None of it is state. -/

namespace Sys2Proof

/-! ## Constants whose value the source fixes (R6, rows of kind *source*) -/

/-- The small-prime table `P[0..6]` of the epsilon channel. -/
def primes : Vector Nat 7 := #v[3, 5, 7, 11, 13, 17, 19]

/-- `EPS_ROT(i)`. -/
def epsRot (i : Nat) : Nat := (13 + 7 * i) % 64

/-- `EPS_CAP`: the last round index of the epsilon channel. -/
def epsCap : Nat := 6

/-- `TOKEN_CAP`: the longest numeric token, in bytes. -/
def tokenCap : Nat := 59

/-- `SAMPLE_DIV`. -/
def sampleDiv : Nat := 128

/-- `PRE_BLOCK`: the block size of the precursor transform. -/
def preBlock : Nat := 256

/-- `PRE_BACK`: how far back the precursor transform reads. -/
def preBack : Nat := 5

/-- `RMIX_DEPTH`: the depth of the first call of the recursive mixer. -/
def rmixDepth : Nat := 4

/-- `RMIX_LEAF`: a range shorter than this is a leaf of the recursive mixer. -/
def rmixLeaf : Nat := 64

/-- `LABEL1`: "RDT256-SEEDGEN-v1" and a NUL. -/
def label1 : Bytes :=
  [0x52, 0x44, 0x54, 0x32, 0x35, 0x36, 0x2D, 0x53, 0x45, 0x45, 0x44, 0x47, 0x45, 0x4E, 0x2D, 0x76, 0x31, 0x00]

/-- `LABEL2`: "StevenReid:RDT256" and a NUL. -/
def label2 : Bytes :=
  [0x53, 0x74, 0x65, 0x76, 0x65, 0x6E, 0x52, 0x65, 0x69, 0x64, 0x3A, 0x52, 0x44, 0x54, 0x32, 0x35, 0x36, 0x00]

/-! ## The configuration record -/

/-- `Cfg` of R5: the rows of R6 of kind *decision*, the two functions `H` and `ParseDec` among them (U9 of
spec/93_implementation_defined.md). -/
structure Cfg where
  /-- `C_EPS` -/
  cEps : Word
  /-- `ROT3[0..2]` -/
  rot3 : Vector Nat 3
  /-- `MUL3[0..2]` -/
  mul3 : Vector Word 3
  /-- `SH_R` -/
  shR : Nat
  /-- `SH_L` -/
  shL : Nat
  /-- `R_N` -/
  rN : Nat
  /-- `R_P` -/
  rP : Nat
  /-- `SM_GAMMA` -/
  smGamma : Word
  /-- `SM_M1` -/
  smM1 : Word
  /-- `SM_M2` -/
  smM2 : Word
  /-- `C_PD[0..3]` -/
  cPd : Quad Word
  /-- `C_ABS` -/
  cAbs : Word
  /-- `C_DIF` -/
  cDif : Word
  /-- `R_DIF` -/
  rDif : Nat
  /-- `C_FIN` -/
  cFin : Word
  /-- `C_UPD` -/
  cUpd : Word
  /-- `R_PROBE` -/
  rProbe : Nat
  /-- `PERM[0..7]` -/
  perm : Vector (Quad (Fin 4)) 8
  /-- `C_L[0..3]` -/
  cL : Quad Word
  /-- `R_X1` -/
  rX1 : Nat
  /-- `R_X2` -/
  rX2 : Nat
  /-- `C_RND` -/
  cRnd : Word
  /-- `BUF_CAP`: the capacity in bytes of each of the buffers A, B and OUT. -/
  bufCap : Nat
  /-- `RC_W`: the width of the reseed counter, which counts modulo `2^RC_W` (spec/10_state.md R19). The register that holds
  it has 64 bits (log entry 5). -/
  rcW : Nat
  /-- `H`: from byte strings of any length to 32-byte strings (R118). -/
  hash : Bytes → Digest
  /-- `ParseDec`: the binary64 encoding of the number a token spells (R102). -/
  parseDec : Bytes → Word

/-! ## The buffer spaces and the free values -/

/-- The host-visible buffer spaces (R36). POOL is internal to one EXTRACT and is no state (R18, R39). -/
inductive Space where
  | a
  | b
  | out
  deriving DecidableEq, Repr

/-- FREE VALUE. The byte that stands at an address of a buffer after the `epoch`-th reset, until something writes it: R34
and U5 say that it is an arbitrary value, byte by byte. It has no body, so nothing can be proved of the value (log entry 1). -/
opaque Config.powerOnByte (epoch : Nat) (sp : Space) (addr : Nat) : Byte

end Sys2Proof
end

