-- ==== Sys2Proof/Machine/Bits.lean ====
section
/-! DEFINITION. The notation and primitives of spec/00_scope.md R8 to R11: rotations, byte orders, counting, and
indexing into the four-word and five-word register groups. -/

namespace Sys2Proof.Machine

/-- `rotl64(v, n)` (R9), for `0 ≤ n ≤ 63`. -/
def rotl64 (v : Word) (n : Nat) : Word := if n = 0 then v else (v <<< n) ||| (v >>> (64 - n))

/-- `bitlen(x)` (R10), in 0..64. -/
def bitlen (x : Word) : Nat := if x.toNat = 0 then 0 else Nat.log2 x.toNat + 1

/-- The number of one bits among the low `n` bits of `v`. -/
def onesBelow : Nat → Nat → Nat
  | 0, _ => 0
  | n + 1, v => v % 2 + onesBelow n (v / 2)

/-- `popcount(x)` (R10), in 0..64. -/
def popcount (x : Word) : Nat := onesBelow 64 x.toNat

/-! ## Byte order (R8, R40) -/

/-- The `n`-byte little-endian encoding of `v mod 2^(8n)`: byte `i` is bits `8i+7 : 8i`. -/
def leBytes : Nat → Nat → Bytes
  | 0, _ => []
  | n + 1, v => BitVec.ofNat 8 v :: leBytes n (v / 256)

/-- `LE64(v)`. -/
def le64 (v : Word) : Bytes := leBytes 8 v.toNat

/-- `LE32(v mod 2^32)`. -/
def le32 (v : Nat) : Bytes := leBytes 4 v

/-- The unsigned integer whose little-endian encoding is `b`. -/
def fromLe : Bytes → Nat
  | [] => 0
  | b :: rest => b.toNat + 256 * fromLe rest

/-- `le64(b)`: the inverse of `LE64` on an 8-byte string. -/
def wordOfLe (b : Bytes) : Word := BitVec.ofNat 64 (fromLe b)

/-- The unsigned integer whose big-endian encoding is `b` (the hash unit alone is big-endian, R121). -/
def fromBe (b : Bytes) : Nat := b.foldl (fun acc x => 256 * acc + x.toNat) 0

/-- The `n`-byte big-endian encoding of `v mod 2^(8n)`. -/
def beBytes (n v : Nat) : Bytes := (leBytes n v).reverse

/-! ## Register groups -/

/-- The entry at index `i`. -/
def quadGet {α : Type} (q : Quad α) : Fin 4 → α
  | 0 => q.q0
  | 1 => q.q1
  | 2 => q.q2
  | 3 => q.q3

/-- `q[i] <- x`. -/
def quadSet {α : Type} (q : Quad α) (i : Fin 4) (x : α) : Quad α :=
  match i with
  | 0 => { q with q0 := x }
  | 1 => { q with q1 := x }
  | 2 => { q with q2 := x }
  | 3 => { q with q3 := x }

/-- The index `n mod 4`. -/
def mod4 (n : Nat) : Fin 4 := ⟨n % 4, Nat.mod_lt n (by decide)⟩

/-- Four entries that are all `x`. -/
def quadOf {α : Type} (x : α) : Quad α := ⟨x, x, x, x⟩

/-- `ARG[i]`. -/
def argGet (r : ArgFile) : Fin 5 → Word
  | 0 => r.a0
  | 1 => r.a1
  | 2 => r.a2
  | 3 => r.a3
  | 4 => r.a4

/-- `ARG[i] <- x`. -/
def argSet (r : ArgFile) (i : Fin 5) (x : Word) : ArgFile :=
  match i with
  | 0 => { r with a0 := x }
  | 1 => { r with a1 := x }
  | 2 => { r with a2 := x }
  | 3 => { r with a3 := x }
  | 4 => { r with a4 := x }

/-- The byte at index `i`, 0x00 beyond the end. -/
def byteAt (b : Bytes) (i : Nat) : Byte := b.getD i 0

/-- `NOT8(b)` (R9): 255 − b. -/
def not8 (b : Byte) : Byte := ~~~b

end Sys2Proof.Machine
end

