-- ==== Sys2Proof/Machine/MixCore.lean ====
section
/-! DEFINITION. MixCore, the keyed mixing primitive (spec/40_mixcore.md R60 to R65). Every function takes the
configuration where it uses it (spec/00_scope.md R5). -/

namespace Sys2Proof.Machine

/-- `depth(x)` (R60): bit length, population count and middle bits, XORed and masked to 6 bits. -/
def depth (x : Word) : BitVec 6 :=
  let b := bitlen x
  let p := popcount x
  let m := x >>> (b / 2)
  (BitVec.ofNat 64 b ^^^ BitVec.ofNat 64 p ^^^ m).setWidth 6

/-- The second loop of `isqrt` (R61), with `bit` = 4^(e−1) on the call with count `e`; `bit` = 0 ends it. -/
def isqrtLoop : Nat → Nat → Nat → Nat
  | 0, _, r => r
  | e + 1, n, r =>
    let bit := 4 ^ e
    if r + bit ≤ n then isqrtLoop e (n - (r + bit)) (r / 2 + bit) else isqrtLoop e n (r / 2)

/-- The first loop of `isqrt` (R61): the exponent of the largest power of 4, from 4^e down, that is not over `n`. -/
def isqrtStart : Nat → Nat → Nat
  | 0, _ => 0
  | e + 1, n => if n < 4 ^ (e + 1) then isqrtStart e n else e + 1

/-- `isqrt(n)` (R61) by the bit-pair method, from `bit` = 2^34 = 4^17. -/
def isqrt (n : Nat) : Nat := isqrtLoop (isqrtStart 17 n + 1) n 0

/-- `scalar(x)` (R62): the pair `(phi, ds)`. -/
def scalar (x : Word) : Nat × BitVec 6 :=
  let lo := (x.extractLsb' 0 16).toNat
  let hi := (x.extractLsb' 16 16).toNat
  let phi := isqrt (lo * lo + hi * hi)
  (phi, depth (BitVec.ofNat 64 phi))

/-- `P[i]`, for `i ≤ 6`. -/
def primeAt (i : Nat) : Word := BitVec.ofNat 64 (primes.toList.getD i 0)

/-- What round `i` of the epsilon channel XORs into `eps` (R63). -/
def epsTerm (c : Cfg) (x : Word) (k : Quad Word) (i : Nat) : Word :=
  rotl64 (((x ^^^ quadGet k (mod4 i)) + primeAt i) * c.cEps) (epsRot i)

/-- `epsilon(x, d, K)` (R63): `min(d, 6) + 1` rounds. -/
def epsilon (c : Cfg) (x : Word) (d : BitVec 6) (k : Quad Word) : Word :=
  (List.range (min d.toNat epsCap + 1)).foldl (fun eps i => eps ^^^ epsTerm c x k i) 0#64

/-- The table index `d mod 3` of the finalizer (R64). -/
def mod3 (d : BitVec 6) : Fin 3 := ⟨d.toNat % 3, Nat.mod_lt _ (by decide)⟩

/-- `finalize(x, d, phi, ds, eps, K)` (R64). -/
def finalize (c : Cfg) (x : Word) (d : BitVec 6) (phi : Nat) (ds : BitVec 6) (eps : Word) (k : Quad Word) : Word :=
  let rot := c.rot3[mod3 d]
  let mul := c.mul3[mod3 d]
  let h0 := x ^^^ eps ^^^ rotl64 (BitVec.ofNat 64 phi) ds.toNat
  let h1 := h0 ^^^ (h0 >>> c.shR)
  let h2 := h1 ^^^ (h1 <<< c.shL)
  let h3 := h2 * mul
  let e := d ^^^ BitVec.ofNat 6 rot
  rotl64 (h3 ^^^ quadGet k (mod4 e.toNat)) e.toNat

/-- `mix(x, K)` (R65). -/
def mix (c : Cfg) (x : Word) (k : Quad Word) : Word :=
  let d := depth x
  let s := scalar x
  finalize c x d s.1 s.2 (epsilon c x d k) k

end Sys2Proof.Machine
end

