-- ==== Sys2Proof/Machine/Drbg.lean ====
section
/-! DEFINITION. The DRBG's internal functions (spec/41_drbg_functions.md R70 to R81). The working registers `PD`, `T`
and `L` are local values of these functions (spec/10_state.md R18). -/

namespace Sys2Proof.Machine

/-- `v_inc` (R70): the carry of `V[0]` goes into `V[1]`. -/
def vInc (v : Counter) : Counter :=
  let lo := v.lo + 1
  if lo = 0#64 then ⟨lo, v.hi + 1⟩ else ⟨lo, v.hi⟩

/-! ## The block function (R71 to R75) -/

/-- The probe word (R71). -/
def probe (c : Cfg) (v : Counter) (k : Quad Word) : Word := (v.lo ^^^ k.q0) ^^^ rotl64 v.hi c.rProbe

/-- The shell, 0..7 (R72). -/
def shellOf (c : Cfg) (v : Counter) (k : Quad Word) : BitVec 3 := (depth (probe c v k)).setWidth 3

/-- The round count, 3..6 (R73). -/
def roundsOf (shell : BitVec 3) : Nat := 3 + shell.toNat % 4

/-- Lane seeding (R74). -/
def seedLanes (c : Cfg) (v : Counter) (k : Quad Word) : Quad Word :=
  ⟨(v.lo ^^^ k.q0) + c.cL.q0,
   (v.hi ^^^ k.q1) + c.cL.q1,
   (rotl64 v.lo 32 ^^^ k.q2) + c.cL.q2,
   (rotl64 v.hi 32 ^^^ k.q3) + c.cL.q3⟩

/-- One round of the block function (R75), lanes named by the row `p` = (a, b, c, e) of `PERM`. -/
def blockRound (c : Cfg) (k : Quad Word) (p : Quad (Fin 4)) (l : Quad Word) (r : Nat) : Quad Word :=
  let l := quadSet l p.q0 (quadGet l p.q0 + quadGet l p.q1)
  let l := quadSet l p.q3 (quadGet l p.q3 ^^^ rotl64 (quadGet l p.q0) c.rX1)
  let l := quadSet l p.q2 (quadGet l p.q2 + quadGet l p.q3)
  let l := quadSet l p.q1 (quadGet l p.q1 ^^^ rotl64 (quadGet l p.q2) c.rX2)
  let l := quadSet l p.q0 (mix c (quadGet l p.q0 + c.cRnd * BitVec.ofNat 64 (2 * r + 1)) k)
  quadSet l p.q2 (mix c (quadGet l p.q2 + c.cRnd * BitVec.ofNat 64 (2 * r + 2)) k)

/-- `block(V0, V1, K')` (R75). -/
def block (c : Cfg) (v : Counter) (k : Quad Word) : Word :=
  let shell := shellOf c v k
  let p := c.perm[shell.toFin]
  let l := (List.range (roundsOf shell)).foldl (blockRound c k p) (seedLanes c v k)
  mix c (l.q0 ^^^ l.q1 ^^^ l.q2 ^^^ l.q3 ^^^ (shell.setWidth 64 <<< 56)) k

/-! ## The derivation function (R76 to R79) -/

/-- `lanes(B)` (R76): a lane is eight bytes, the first the least significant; the last is completed with zeros. -/
def lanes : Bytes → List Word
  | b0 :: b1 :: b2 :: b3 :: b4 :: b5 :: b6 :: b7 :: rest =>
    wordOfLe [b0, b1, b2, b3, b4, b5, b6, b7] :: lanes rest
  | [] => []
  | part => [wordOfLe part]

/-- One lane of `absorb` (R77). -/
def absorbLane (c : Cfg) (k : Quad Word) (pd : Quad Word) (q : Nat) (lane : Word) : Quad Word :=
  quadSet pd (mod4 q) (quadGet pd (mod4 q) ^^^ mix c (lane + c.cAbs * BitVec.ofNat 64 (q + 1)) k)

/-- The lanes of `absorb` in order, from lane number `q` (R77). -/
def absorbLanes (c : Cfg) (k : Quad Word) : Quad Word → Nat → List Word → Quad Word
  | pd, _, [] => pd
  | pd, q, lane :: rest => absorbLanes c k (absorbLane c k pd q lane) (q + 1) rest

/-- One step `(ps, j)` of `diffuse` (R78). -/
def diffuseStep (c : Cfg) (k : Quad Word) (ps : Nat) (pd : Quad Word) (j : Nat) : Quad Word :=
  let t := quadGet pd (mod4 (j + 1)) ^^^ rotl64 (quadGet pd (mod4 (j + 3))) c.rDif ^^^
    (c.cDif * BitVec.ofNat 64 (4 * ps + j + 1))
  quadSet pd (mod4 j) (quadGet pd (mod4 j) ^^^ mix c t k)

/-- `diffuse()` (R78): two passes, each over `j` = 0, 1, 2, 3. -/
def diffuse (c : Cfg) (k : Quad Word) (pd : Quad Word) : Quad Word :=
  [0, 1].foldl (fun pd ps => [0, 1, 2, 3].foldl (diffuseStep c k ps) pd) pd

/-- `absorb(B)` (R77): all lanes, then one diffusion. -/
def absorb (c : Cfg) (k : Quad Word) (pd : Quad Word) (b : Bytes) : Quad Word :=
  diffuse c k (absorbLanes c k pd 0 (lanes b))

/-- A string is absorbed only if it is not empty (R79). -/
def absorbIfAny (c : Cfg) (k : Quad Word) (pd : Quad Word) (b : Bytes) : Quad Word :=
  if b = [] then pd else absorb c k pd b

/-- The final mix of lane `j` (R79). -/
def finLane (c : Cfg) (k : Quad Word) (x : Word) (j : Nat) : Word := mix c (x ^^^ (c.cFin * BitVec.ofNat 64 (j + 1))) k

/-- `make_PD(E, A)` (R79), keyed by `k`. -/
def makePD (c : Cfg) (k : Quad Word) (e a : Bytes) : Quad Word :=
  let pd := absorbIfAny c k (absorbIfAny c k c.cPd e) a
  ⟨finLane c k pd.q0 0, finLane c k pd.q1 1, finLane c k pd.q2 2, finLane c k pd.q3 3⟩

/-! ## The update function and the stream expander (R80, R81) -/

/-- The DRBG's registers: `K[0..3]` (R16), `V[0..1]` (R17) and `RC` (R19). -/
structure Drbg where
  k : Quad Word
  v : Counter
  rc : Word
  deriving DecidableEq, Repr

/-- `RC + 1`, modulo `2^RC_W` (spec/10_state.md R19; R80). -/
def countUp (c : Cfg) (rc : Word) : Word := BitVec.ofNat 64 ((rc.toNat + 1) % 2 ^ c.rcW)

/-- `T[i]` of `update`: the block XOR `PD[i]` where there is a `PD` (R80). -/
def updT (c : Cfg) (k : Quad Word) (v : Counter) (pd : Option (Quad Word)) (i : Fin 4) : Word :=
  match pd with
  | none => block c v k
  | some p => block c v k ^^^ quadGet p i

/-- `Knew[i]` of `update` (R80), keyed by the old key. -/
def updK (c : Cfg) (k : Quad Word) (t : Word) (i : Nat) : Word := mix c (t + c.cUpd * BitVec.ofNat 64 i) k

/-- `update(has_pd)` (R80): `pd` is `none` where `has_pd` is false. -/
def update (c : Cfg) (d : Drbg) (pd : Option (Quad Word)) : Drbg :=
  let v1 := vInc d.v
  let v2 := vInc v1
  let v3 := vInc v2
  let v4 := vInc v3
  let t0 := updT c d.k v1 pd 0
  let t1 := updT c d.k v2 pd 1
  let t2 := updT c d.k v3 pd 2
  let t3 := updT c d.k v4 pd 3
  let knew : Quad Word := ⟨updK c d.k t0 0, updK c d.k t1 1, updK c d.k t2 2, updK c d.k t3 3⟩
  { k := knew
    v := ⟨v4.lo ^^^ mix c (t0 ^^^ t2) knew, v4.hi ^^^ mix c (t1 ^^^ t3) knew⟩
    rc := countUp c d.rc }

/-- The output function of SplitMix64 (R81). -/
def splitMixOut (c : Cfg) (s : Word) : Word :=
  let z := (s ^^^ (s >>> 30)) * c.smM1
  let z := (z ^^^ (z >>> 27)) * c.smM2
  z ^^^ (z >>> 31)

/-- `expand(s)` (R81): the state has `SM_GAMMA` added before each word; `w[0..3]` are the key, `w[4]` and `w[5]` the
counter. -/
def expand (c : Cfg) (s : Word) : Quad Word × Counter :=
  let s0 := s + c.smGamma
  let s1 := s0 + c.smGamma
  let s2 := s1 + c.smGamma
  let s3 := s2 + c.smGamma
  let s4 := s3 + c.smGamma
  let s5 := s4 + c.smGamma
  (⟨splitMixOut c s0, splitMixOut c s1, splitMixOut c s2, splitMixOut c s3⟩, ⟨splitMixOut c s4, splitMixOut c s5⟩)

/-! ## The output stream of GENERATE (R92) -/

/-- The counter after `n` increments. -/
def vAdvance : Nat → Counter → Counter
  | 0, v => v
  | n + 1, v => vAdvance n (vInc v)

/-- `n` blocks, `V` incremented before each (R92). -/
def blocks (c : Cfg) (k : Quad Word) : Nat → Counter → List Word
  | 0, _ => []
  | n + 1, v => block c (vInc v) k :: blocks c k n (vInc v)

/-- `ceil(n/8)`. -/
def blockCount (n : Nat) : Nat := (n + 7) / 8

/-- The `len` output bytes of GENERATE: the blocks in little-endian order, the last one truncated (R92). -/
def stream (c : Cfg) (k : Quad Word) (v : Counter) (len : Nat) : Bytes :=
  ((blocks c k (blockCount len) v).flatMap le64).take len

end Sys2Proof.Machine
end

