-- ==== Sys2Proof/Machine/State.lean ====
section
/-! DEFINITION. The state of the engine (spec/10_state.md R15 to R34), the actions its one host takes at the interface
(R22 to R27, spec/20_memory.md R36, spec/30_encoding.md R56), the faults and refusals, and the state after reset. -/

namespace Sys2Proof.Machine

/-- `LIFE`, the lifecycle state (R20): codes 0, 1 and 2. Code 3 is never taken. -/
inductive Life where
  | uninstantiated
  | ready
  | zeroized
  deriving DecidableEq, Repr

/-- The codes of `STATUS.ERR` (R21, spec/60_exceptions.md R126): 0, 1, 2 and 3. Codes 4 to 15 are never produced, and the
engine never produces 2, which belongs to the host's file layer (R127). -/
inductive ErrCode where
  | ok
  | invalidArgument
  | ioFailure
  | illegalCommand
  deriving DecidableEq, Repr

/-- One of the host's own actions at the interface, a line of a host script (R56). -/
inductive HostAction where
  /-- A write of `width` bytes at offset `off` of the REG space; a write of 8 bytes at offset 0 is the write of `CMD`. -/
  | regWrite (off width : Nat) (v : Word)
  /-- A read of `width` bytes at offset `off` of the REG space. -/
  | regRead (off width : Nat)
  /-- A write of one byte of a buffer (R42). -/
  | bufWrite (sp : Space) (addr : Nat) (b : Byte)
  /-- A read of one byte of a buffer. -/
  | bufRead (sp : Space) (addr : Nat)
  /-- The reset event (spec/70_reset_and_hazards.md R140), however the platform signals it. -/
  | reset
  deriving DecidableEq, Repr

/-- A buffer: (address, byte) pairs, addresses strictly rising. An address that is not listed holds the byte that stood
there after the last reset, which is a free value (`Config.powerOnByte`; log entry 1). -/
abbrev Buffer := List Host.Cell

/-- The machine's state. `PD`, `T`, `L` and POOL are not in it: they are working values that survive no command (R18). -/
structure State where
  /-- `K[0..3]` (R16), `V[0..1]` (R17) and `RC` (R19). -/
  drbg : Drbg
  /-- `LIFE` (R20). -/
  life : Life
  /-- `ERR` (R21). -/
  err : ErrCode
  /-- `BUSY` (R21): set by the write of `CMD`, cleared when the command completes, so false between commands. -/
  busy : Bool
  /-- `LEN_A` (R23). -/
  lenA : Word32
  /-- `LEN_B` (R23). -/
  lenB : Word32
  /-- `ARG[0..4]` (R24). -/
  arg : ArgFile
  /-- `RES[0..3]` (R25). -/
  res : Quad Word
  /-- Buffer A (spec/20_memory.md R36). -/
  bufA : Buffer
  /-- Buffer B (R36). -/
  bufB : Buffer
  /-- Buffer OUT (R36). -/
  bufOut : Buffer
  /-- The MODEL's own: how many resets there have been, so that each leaves fresh free values in the buffers (log entry 1). -/
  epoch : Nat
  /-- The MODEL's own: what the host does next, first action first (log entry 2). -/
  script : List HostAction
  /-- The MODEL's own: the value the host's latest read returned, a byte zero-extended (log entry 3). -/
  readData : Word
  deriving DecidableEq, Repr

/-- Why the machine stops: an access to an address the spec says does not exist. -/
inductive Fault where
  /-- Raised by a host access to the REG space at offset 256 or beyond (the REG space is 256 bytes, R26). Safe: the
  platform's answer to such an access is not the engine's. -/
  | noSuchRegister (off : Nat)
  /-- Raised by a host access to a byte of a buffer at `BUF_CAP` or beyond (R36). Safe, for the same reason. -/
  | noSuchByte (sp : Space) (addr : Nat)
  deriving DecidableEq, Repr

/-- Where the model states nothing. -/
inductive Refusal where
  /-- An instruction without a meaning. No arm of `exec` answers it. Safe. -/
  | notModelled (mnemonic : String)
  /-- Raised by a host access to a reserved offset, 0x70 to 0xFF: R27 says that a model should treat it as a refusal. Safe. -/
  | reservedRegister (off : Nat)
  /-- Raised by a host access to REG that is not a naturally aligned 8-byte access: R27 says the same of it. Safe. -/
  | notAlignedWord (off width : Nat)
  /-- Raised by a host access other than a read of `STATUS` or a reset while `BUSY` is 1 (R145, U3). No step leaves `BUSY`
  at 1, so no run from reset reaches it. Safe. -/
  | accessWhileBusy
  deriving DecidableEq, Repr

/-- The machine right after reset (R34, R140). Every register is 0, as R34 states; the buffers list nothing, so each of
their bytes is a free value. The three fields of the model's own are 0, empty and 0 (log entries 1 to 3). -/
def State.reset : State where
  drbg := ⟨⟨0, 0, 0, 0⟩, ⟨0, 0⟩, 0⟩
  life := .uninstantiated
  err := .ok
  busy := false
  lenA := 0
  lenB := 0
  arg := ⟨0, 0, 0, 0, 0⟩
  res := ⟨0, 0, 0, 0⟩
  bufA := []
  bufB := []
  bufOut := []
  epoch := 0
  script := []
  readData := 0

/-- What a step or a meaning answers. -/
abbrev Out := Host.Outcome State Fault Refusal

end Sys2Proof.Machine
end

