-- ==== Sys2Proof/Machine/Ops.lean ====
section
/-! DEFINITION. The named operations every meaning is built from: reading and writing the buffer spaces
(spec/00_scope.md R11, spec/20_memory.md R36), and ending a command with its status (spec/60_exceptions.md R125).
The engine has no trap and no return from one (R132): raising an error is the one thing it has in their place. -/

namespace Sys2Proof.Machine

/-! ## Buffers as canonical lists -/

/-- The byte listed at an address, if one is. -/
def bufLookup : Buffer → Nat → Option Byte
  | [], _ => none
  | (x, y) :: rest, a => if x = a then some y else bufLookup rest a

/-- The buffer with the byte at `a` set, its addresses still strictly rising. -/
def bufStore : Buffer → Nat → Byte → Buffer
  | [], a, b => [(a, b)]
  | (x, y) :: rest, a, b =>
    if a < x then (a, b) :: (x, y) :: rest
    else if a = x then (a, b) :: rest
    else (x, y) :: bufStore rest a b

/-- The bytes `bs` stored from address `a` up, lowest address first (R11, R42). -/
def bufStoreAll : Buffer → Nat → Bytes → Buffer
  | m, _, [] => m
  | m, a, b :: rest => bufStoreAll (bufStore m a b) (a + 1) rest

/-- Addresses strictly rising, from `lo` up and below `cap`. -/
def bufRising (cap : Nat) : Nat → Buffer → Bool
  | _, [] => true
  | lo, (x, _) :: rest => decide (lo ≤ x ∧ x < cap) && bufRising cap (x + 1) rest

/-- The canonical form of a buffer of capacity `cap`. -/
def Memory.wf (cap : Nat) (m : Buffer) : Bool := bufRising cap 0 m

/-! ## The spaces of a state -/

/-- The buffer of a space. -/
def State.buf (s : State) : Space → Buffer
  | .a => s.bufA
  | .b => s.bufB
  | .out => s.bufOut

/-- The state with one buffer replaced. -/
def State.setBuf (s : State) (sp : Space) (m : Buffer) : State :=
  match sp with
  | .a => { s with bufA := m }
  | .b => { s with bufB := m }
  | .out => { s with bufOut := m }

/-- The byte that stands at an address of a space: what was last written there since the last reset, else the free value
of that place (R34, U5). -/
def readByte (s : State) (sp : Space) (a : Nat) : Byte :=
  match bufLookup (s.buf sp) a with
  | some b => b
  | none => Config.powerOnByte s.epoch sp a

/-- `MemRead(space, addr, n)` (R11). -/
def memRead (s : State) (sp : Space) (addr n : Nat) : Bytes := (List.range n).map fun i => readByte s sp (addr + i)

/-- `MemWrite(space, addr, n, b)` with `n` the length of `b` (R11). -/
def memWrite (s : State) (sp : Space) (addr : Nat) (b : Bytes) : State :=
  s.setBuf sp (bufStoreAll (s.buf sp) addr b)

/-! ## Ending a command -/

/-- A command's last action: it posts its status in `ERR`, and it is no longer running (R21, R125). -/
def finish (e : ErrCode) (s : State) : Out := .next { s with err := e, busy := false }

/-- `raise E` (R11, R125): the command stops with its code in `ERR` and nothing else changed. -/
def raise (e : ErrCode) (s : State) : Out := finish e s

/-- What a word that no row of the opcode table matches does (R54, R128). -/
def illegalCommand (s : State) : Out := raise .illegalCommand s

/-- The reset event (R140): every register at its reset value, every byte of the buffers an arbitrary value again. The
host's script and the value it last read are the host's, not the engine's. -/
def resetEvent (s : State) : State :=
  { State.reset with epoch := s.epoch + 1, script := s.script, readData := s.readData }

end Sys2Proof.Machine
end

