-- ==== Sys2Proof/Machine/Operands.lean ====
section
/-! DEFINITION. Where a command's operands come from (spec/30_encoding.md R51): `ARG`, the byte strings `A[0..LEN_A)`
and `B[0..LEN_B)`, and the checks of a length against the capacity (spec/20_memory.md R37). -/

namespace Sys2Proof.Machine

/-- A length that exceeds `BUF_CAP` (R37). -/
def overCap (c : Cfg) (n : Nat) : Bool := decide (c.bufCap < n)

/-- `A[0..LEN_A)`: the `entropy` of RESEED, the `data` of EXTRACT and EXTRACT_U64. -/
def inputA (s : State) : Bytes := memRead s .a 0 s.lenA.toNat

/-- `B[0..LEN_B)`: the `additional` of RESEED and GENERATE. -/
def inputB (s : State) : Bytes := memRead s .b 0 s.lenB.toNat

/-- The MixKey of the MIX command: `K'[i] = ARG[i+1]` (spec/40_mixcore.md R66). -/
def mixKey (s : State) : Quad Word := ⟨s.arg.a1, s.arg.a2, s.arg.a3, s.arg.a4⟩

/-- INSTANTIATE's 24 raw bytes: `entropy_seed`, `nonce` and `personalization` in that order (spec/42_drbg_commands.md R90). -/
def rawOperands (s : State) : Bytes := le64 s.arg.a0 ++ le64 s.arg.a1 ++ le64 s.arg.a2

/-- INSTANTIATE's one seed word (R90). -/
def seedCombine (c : Cfg) (s : State) : Word := s.arg.a0 ^^^ rotl64 s.arg.a1 c.rN ^^^ rotl64 s.arg.a2 c.rP

end Sys2Proof.Machine
end

