-- ==== Sys2Proof/Machine/Hash.lean ====
section
/-! DEFINITION. SHA-256, the hash unit's instance in the reference configuration (spec/44_hash.md R119 to R122;
decision D45 of the spec). Everything here is big-endian (R121). -/

namespace Sys2Proof.Machine

/-- `rotr32(x, n)`, for 1 ≤ n ≤ 31. -/
def rotr32 (x : Word32) (n : Nat) : Word32 := (x >>> n) ||| (x <<< (32 - n))

/-! ## R119 -/

def shaCh (x y z : Word32) : Word32 := (x &&& y) ^^^ (~~~x &&& z)
def shaMaj (x y z : Word32) : Word32 := (x &&& y) ^^^ (x &&& z) ^^^ (y &&& z)
def bsig0 (x : Word32) : Word32 := rotr32 x 2 ^^^ rotr32 x 13 ^^^ rotr32 x 22
def bsig1 (x : Word32) : Word32 := rotr32 x 6 ^^^ rotr32 x 11 ^^^ rotr32 x 25
def ssig0 (x : Word32) : Word32 := rotr32 x 7 ^^^ rotr32 x 18 ^^^ (x >>> 3)
def ssig1 (x : Word32) : Word32 := rotr32 x 17 ^^^ rotr32 x 19 ^^^ (x >>> 10)

/-- The eight working words `a..hh`, or the chaining value `h[0..7]` (R122). -/
structure ShaState where
  a : Word32
  b : Word32
  c : Word32
  d : Word32
  e : Word32
  f : Word32
  g : Word32
  h : Word32
  deriving DecidableEq, Repr

/-- `H0[0..7]` (R120). -/
def shaInit : ShaState :=
  ⟨0x6A09E667, 0xBB67AE85, 0x3C6EF372, 0xA54FF53A, 0x510E527F, 0x9B05688C, 0x1F83D9AB, 0x5BE0CD19⟩

/-- `KC[0..31]` (R120). -/
def shaConstsLow : List Word32 :=
  [0x428A2F98, 0x71374491, 0xB5C0FBCF, 0xE9B5DBA5, 0x3956C25B, 0x59F111F1, 0x923F82A4, 0xAB1C5ED5,
   0xD807AA98, 0x12835B01, 0x243185BE, 0x550C7DC3, 0x72BE5D74, 0x80DEB1FE, 0x9BDC06A7, 0xC19BF174,
   0xE49B69C1, 0xEFBE4786, 0x0FC19DC6, 0x240CA1CC, 0x2DE92C6F, 0x4A7484AA, 0x5CB0A9DC, 0x76F988DA,
   0x983E5152, 0xA831C66D, 0xB00327C8, 0xBF597FC7, 0xC6E00BF3, 0xD5A79147, 0x06CA6351, 0x14292967]

/-- `KC[32..63]` (R120). -/
def shaConstsHigh : List Word32 :=
  [0x27B70A85, 0x2E1B2138, 0x4D2C6DFC, 0x53380D13, 0x650A7354, 0x766A0ABB, 0x81C2C92E, 0x92722C85,
   0xA2BFE8A1, 0xA81A664B, 0xC24B8B70, 0xC76C51A3, 0xD192E819, 0xD6990624, 0xF40E3585, 0x106AA070,
   0x19A4C116, 0x1E376C08, 0x2748774C, 0x34B0BCB5, 0x391C0CB3, 0x4ED8AA4A, 0x5B9CCA4F, 0x682E6FF3,
   0x748F82EE, 0x78A5636F, 0x84C87814, 0x8CC70208, 0x90BEFFFA, 0xA4506CEB, 0xBEF9A3F7, 0xC67178F2]

/-- `KC[0..63]` (R120). -/
def shaConsts : List Word32 := shaConstsLow ++ shaConstsHigh

/-- `pad(M)` (R121): 0x80, the least number of zero bytes that makes the whole a multiple of 64, the length in bits. -/
def shaPad (m : Bytes) : Bytes :=
  m ++ [0x80#8] ++ List.replicate ((64 - (m.length + 9) % 64) % 64) 0#8 ++ beBytes 8 (8 * m.length)

/-- The bytes of a block as big-endian 32-bit words, in order. -/
def be32Words : Bytes → List Word32
  | b0 :: b1 :: b2 :: b3 :: rest => BitVec.ofNat 32 (fromBe [b0, b1, b2, b3]) :: be32Words rest
  | _ => []

/-- `w[t]` from the words before it, the latest first: `w[t−2]`, `w[t−7]`, `w[t−15]`, `w[t−16]` (R122). -/
def nextScheduleWord (ws : List Word32) : Word32 :=
  ssig1 (ws.getD 1 0) + ws.getD 6 0 + ssig0 (ws.getD 14 0) + ws.getD 15 0

/-- `n` more schedule words, the latest first. -/
def extendSchedule : Nat → List Word32 → List Word32
  | 0, ws => ws
  | n + 1, ws => extendSchedule n (nextScheduleWord ws :: ws)

/-- The message schedule `w[0..63]` of a 64-byte block (R122). -/
def schedule (blk : Bytes) : List Word32 := (extendSchedule 48 (be32Words blk).reverse).reverse

/-- One round of the compression, with `kw` = (KC[t], w[t]) (R122). -/
def shaRound (s : ShaState) (kw : Word32 × Word32) : ShaState :=
  let t1 := s.h + bsig1 s.e + shaCh s.e s.f s.g + kw.1 + kw.2
  let t2 := bsig0 s.a + shaMaj s.a s.b s.c
  ⟨t1 + t2, s.a, s.b, s.c, s.d + t1, s.e, s.f, s.g⟩

/-- The compression of one 64-byte block into the chaining value (R122). -/
def shaBlock (h : ShaState) (blk : Bytes) : ShaState :=
  let s := (List.zip shaConsts (schedule blk)).foldl shaRound h
  ⟨h.a + s.a, h.b + s.b, h.c + s.c, h.d + s.d, h.e + s.e, h.f + s.f, h.g + s.g, h.h + s.h⟩

/-- The compression of `n` blocks of 64 bytes, in order. -/
def shaBlocks : Nat → ShaState → Bytes → ShaState
  | 0, h, _ => h
  | n + 1, h, m => shaBlocks n (shaBlock h (m.take 64)) (m.drop 64)

/-- Byte `i` of `BE32(x)`. -/
def be32Byte (x : Word32) (i : Nat) : Byte := x.extractLsb' (24 - 8 * i) 8

/-- The digest: `BE32(h[0]) ‖ … ‖ BE32(h[7])` (R122). -/
def shaDigest (s : ShaState) : Digest :=
  #v[be32Byte s.a 0, be32Byte s.a 1, be32Byte s.a 2, be32Byte s.a 3, be32Byte s.b 0, be32Byte s.b 1, be32Byte s.b 2, be32Byte s.b 3,
     be32Byte s.c 0, be32Byte s.c 1, be32Byte s.c 2, be32Byte s.c 3, be32Byte s.d 0, be32Byte s.d 1, be32Byte s.d 2, be32Byte s.d 3,
     be32Byte s.e 0, be32Byte s.e 1, be32Byte s.e 2, be32Byte s.e 3, be32Byte s.f 0, be32Byte s.f 1, be32Byte s.f 2, be32Byte s.f 3,
     be32Byte s.g 0, be32Byte s.g 1, be32Byte s.g 2, be32Byte s.g 3, be32Byte s.h 0, be32Byte s.h 1, be32Byte s.h 2, be32Byte s.h 3]

/-- `SHA256(M)` (R122). -/
def sha256 (m : Bytes) : Digest :=
  let p := shaPad m
  shaDigest (shaBlocks (p.length / 64) shaInit p)

end Sys2Proof.Machine
end

