-- ==== Sys2Proof/Machine/ParseDec.lean ====
section
/-! DEFINITION. The token language of the numeric scan (spec/43_seed_engine.md R101) and `ParseDec` of the reference
configuration: the correctly rounded conversion of a decimal token to IEEE 754 binary64 (R102; decision D42 of the spec). -/

namespace Sys2Proof.Machine

/-! ## The four parts of a token (R101) -/

/-- `isdigit(c)`. -/
def isDigit (c : Byte) : Bool := decide (0x30 ≤ c.toNat ∧ c.toNat ≤ 0x39)

/-- `'+'` or `'-'`. -/
def isSign (c : Byte) : Bool := c == 0x2B || c == 0x2D

/-- The leading sign, if there is one, and the rest. -/
def splitSign : Bytes → Bytes × Bytes
  | c :: rest => if isSign c then ([c], rest) else ([], c :: rest)
  | [] => ([], [])

/-- The longest run of digits, and the rest. -/
def splitDigits (b : Bytes) : Bytes × Bytes := (b.takeWhile isDigit, b.dropWhile isDigit)

/-- The optional fraction, a dot and the digits after it, of which there may be none; and the rest. -/
def splitFraction : Bytes → Bytes × Bytes
  | c :: rest => if c == 0x2E then (c :: (splitDigits rest).1, (splitDigits rest).2) else ([], c :: rest)
  | [] => ([], [])

/-- The optional exponent, taken only when complete: `e` or `E`, an optional sign, at least one digit. -/
def splitExponent : Bytes → Bytes × Bytes
  | c :: rest =>
    if c == 0x65 || c == 0x45 then
      let sg := splitSign rest
      let dg := splitDigits sg.2
      if dg.1 = [] then ([], c :: rest) else (c :: (sg.1 ++ dg.1), dg.2)
    else ([], c :: rest)
  | [] => ([], [])

/-- A token cut into sign, integer digits, fraction and exponent, each with its own leading mark. -/
structure TokenParts where
  sign : Bytes
  digits : Bytes
  fraction : Bytes
  exponent : Bytes
  deriving DecidableEq, Repr

/-- The token at the start of a window, greedily (R101). -/
def tokenParts (w : Bytes) : TokenParts :=
  let sg := splitSign w
  let dg := splitDigits sg.2
  let fr := splitFraction dg.2
  let ex := splitExponent fr.2
  ⟨sg.1, dg.1, fr.1, ex.1⟩

/-- The bytes of a token. -/
def tokenText (p : TokenParts) : Bytes := p.sign ++ p.digits ++ p.fraction ++ p.exponent

/-! ## The decimal number a token spells (R102) -/

/-- The number a string of digits spells. -/
def digitsValue (b : Bytes) : Nat := b.foldl (fun acc c => 10 * acc + (c.toNat - 0x30)) 0

/-- Is the sign of a (possibly signed) string `'-'`? -/
def isMinus : Bytes → Bool
  | c :: _ => c == 0x2D
  | [] => false

/-- The power of ten of an exponent part, 0 where there is none. -/
def exponentValue (ex : Bytes) : Int :=
  let body := splitSign (ex.drop 1)
  if isMinus body.1 then -(digitsValue body.2 : Int) else (digitsValue body.2 : Int)

/-- The digits of the integer part and of the fraction, as one number: the magnitude is this times ten to `decimalScale`. -/
def decimalDigits (p : TokenParts) : Nat := digitsValue (p.digits ++ p.fraction.drop 1)

/-- The power of ten that `decimalDigits` is scaled by. -/
def decimalScale (p : TokenParts) : Int := exponentValue p.exponent - ((p.fraction.drop 1).length : Int)

/-! ## Rounding to binary64 (R102, G3 of spec/93_implementation_defined.md) -/

/-- The integer nearest to `n/d`, a tie to the even one. -/
def roundHalfEven (n d : Nat) : Nat :=
  let m := n / d
  let r := n % d
  if d < 2 * r ∨ (2 * r = d ∧ m % 2 = 1) then m + 1 else m

/-- `floor(log2(p/q))` for positive `p` and `q`. -/
def floorLog2 (p q : Nat) : Int :=
  let e : Int := (Nat.log2 p : Int) - (Nat.log2 q : Int)
  if q * 2 ^ e.toNat ≤ p * 2 ^ (-e).toNat then e else e - 1

/-- The exponent of the unit in the last place of binary64 at the magnitude `p/q`: 52 below the leading bit, and never
below −1074, the unit of the subnormals. -/
def ulpExponent (p q : Nat) : Int := max (floorLog2 p q - 52) (-1074)

/-- The encoding of `+∞`. -/
def infinityBits : Nat := 0x7FF * 2 ^ 52

/-- The encoding (sign bit 0) of the binary64 number nearest to `p/q`, ties to even; `+∞` where it is too large. A
significand that rounds up to the next power of two carries into the exponent field. -/
def roundRatio (p q : Nat) : Nat :=
  if p = 0 then 0
  else
    let g := ulpExponent p q
    let m := roundHalfEven (p * 2 ^ (-g).toNat) (q * 2 ^ g.toNat)
    min ((g + 1074).toNat * 2 ^ 52 + m) infinityBits

/-- The encoding (sign bit 0) of `n·10^k` correctly rounded. Two cases are answered without computing the power of ten:
with `n ≥ 1` a scale over 400 is too large for binary64, and with `n < 2^b ≤ 10^b` a magnitude under 10^−400 rounds to
zero. -/
def roundDecimal (n : Nat) (k : Int) : Nat :=
  if n = 0 then 0
  else if 400 < k then infinityBits
  else if k + (Nat.log2 n + 1 : Nat) < -400 then 0
  else roundRatio (n * 10 ^ k.toNat) (10 ^ (-k).toNat)

/-- `ParseDec(tok)` of the reference configuration (R102): the sign is kept, so `"-0"` gives negative zero. -/
def parseDecRef (tok : Bytes) : Word :=
  let p := tokenParts tok
  let mag := BitVec.ofNat 64 (roundDecimal (decimalDigits p) (decimalScale p))
  if isMinus p.sign then mag ||| (1#64 <<< 63) else mag

/-- A binary64 encoding is finite when its exponent field is not all ones. -/
def isFinite64 (v : Word) : Bool := v.extractLsb' 52 11 != 0x7FF#11

end Sys2Proof.Machine
end

