-- ==== Sys2Proof/Machine/Reference.lean ====
section
/-! DEFINITION. The reference configuration `CFG_REF` (spec/00_scope.md R6): the configuration of the machine `core`. -/

namespace Sys2Proof.Machine

/-- `CFG_REF` (R6). -/
def cfgRef : Cfg where
  cEps := 0x9E3779B97F4A7C15
  rot3 := #v[21, 35, 49]
  mul3 := #v[0xBF58476D1CE4E5B9, 0x94D049BB133111EB, 0xFF51AFD7ED558CCD]
  shR := 29
  shL := 17
  rN := 21
  rP := 42
  smGamma := 0x9E3779B97F4A7C15
  smM1 := 0xBF58476D1CE4E5B9
  smM2 := 0x94D049BB133111EB
  cPd := ⟨0x6A09E667F3BCC908, 0xBB67AE8584CAA73B, 0x3C6EF372FE94F82B, 0xA54FF53A5F1D36F1⟩
  cAbs := 0xD6E8FEB86659FD93
  cDif := 0xC2B2AE3D27D4EB4F
  rDif := 29
  cFin := 0x165667B19E3779F9
  cUpd := 0x9FB21C651E98DF25
  rProbe := 29
  perm := #v[⟨0, 1, 2, 3⟩, ⟨1, 2, 3, 0⟩, ⟨2, 3, 0, 1⟩, ⟨3, 0, 1, 2⟩, ⟨0, 2, 1, 3⟩, ⟨1, 3, 2, 0⟩, ⟨2, 0, 3, 1⟩, ⟨3, 1, 0, 2⟩]
  cL := ⟨0x510E527FADE682D1, 0x9B05688C2B3E6C1F, 0x1F83D9ABFB41BD6B, 0x5BE0CD19137E2179⟩
  rX1 := 19
  rX2 := 41
  cRnd := 0x2545F4914F6CDD1D
  bufCap := 2 ^ 32 - 1
  rcW := 64
  hash := sha256
  parseDec := parseDecRef

end Sys2Proof.Machine
end

