-- ==== Sys2Proof/Machine/DrbgFamily.lean ====
section
/-! DEFINITION. The DRBG commands INSTANTIATE, RESEED, GENERATE, NEXT_U64 and ZEROIZE (spec/42_drbg_commands.md R90 to
R94). None reads `LIFE` (R96), and the engine never reseeds by itself (R98). -/

namespace Sys2Proof.Machine

/-- The registers INSTANTIATE leaves: expand, derive, update, set the counter (R90). They depend on `ARG[0..2]` alone. -/
def instantiateDrbg (c : Cfg) (s : State) : Drbg :=
  let w := expand c (seedCombine c s)
  { update c ⟨w.1, w.2, s.drbg.rc⟩ (some (makePD c w.1 (rawOperands s) [])) with rc := 1 }

/-- INSTANTIATE under a configuration. -/
def instantiateCmd (c : Cfg) (s : State) : Out := finish .ok { s with drbg := instantiateDrbg c s, life := .ready }

/-- INSTANTIATE (R90). -/
def execInstantiate (s : State) : Out := instantiateCmd cfgRef s

/-- The registers RESEED leaves: derive, update, and only then set the counter (R91, C1 of spec/90_conflicts.md). -/
def reseedDrbg (c : Cfg) (s : State) : Drbg :=
  { update c s.drbg (some (makePD c s.drbg.k (inputA s) (inputB s))) with rc := 1 }

/-- RESEED under a configuration. -/
def reseedCmd (c : Cfg) (s : State) : Out :=
  if overCap c s.lenA.toNat || overCap c s.lenB.toNat then raise .invalidArgument s
  else finish .ok { s with drbg := reseedDrbg c s }

/-- RESEED (R91). -/
def execReseed (s : State) : Out := reseedCmd cfgRef s

/-- The registers after GENERATE's pre-update, which runs where there is additional input (R92). -/
def preUpdate (c : Cfg) (s : State) : Drbg :=
  if s.lenB = 0#32 then s.drbg else update c s.drbg (some (makePD c s.drbg.k [] (inputB s)))

/-- The registers after the blocks of `len` bytes and the post-update, from the registers `d` after the pre-update (R92). -/
def postUpdate (c : Cfg) (d : Drbg) (len : Nat) : Drbg :=
  update c { d with v := vAdvance (blockCount len) d.v } none

/-- GENERATE under a configuration. The null-output check stands first (R92). -/
def generateCmd (c : Cfg) (ov : Bool) (len : Nat) (s : State) : Out :=
  if decide (len ≠ 0) && !ov then raise .invalidArgument s
  else if overCap c len || overCap c s.lenB.toNat then raise .invalidArgument s
  else
    let d := preUpdate c s
    finish .ok (memWrite { s with drbg := postUpdate c d len } .out 0 (stream c d.k d.v len))

/-- GENERATE (R92). The flag `PR` is advisory: nothing depends on it. -/
def execGenerate (ov _pr : Bool) (len : Nat) (s : State) : Out := generateCmd cfgRef ov len s

/-- NEXT_U64 under a configuration: one block, the post-update, the block word in `RES[0]`. -/
def nextU64Cmd (c : Cfg) (s : State) : Out :=
  let v := vInc s.drbg.v
  finish .ok { s with drbg := update c { s.drbg with v := v } none, res := quadSet s.res 0 (block c v s.drbg.k) }

/-- NEXT_U64 (R93). -/
def execNextU64 (s : State) : Out := nextU64Cmd cfgRef s

/-- ZEROIZE (R94). The working registers it also clears are no state of the model (R18). -/
def zeroizeCmd (s : State) : Out :=
  finish .ok { s with drbg := ⟨quadOf 0#64, ⟨0#64, 0#64⟩, 0#64⟩, life := .zeroized }

/-- ZEROIZE (R94). -/
def execZeroize (s : State) : Out := zeroizeCmd s

end Sys2Proof.Machine
end

