-- ==== Sys2Proof/Machine/MixFamily.lean ====
section
/-! DEFINITION. The command MIX (spec/40_mixcore.md R66). -/

namespace Sys2Proof.Machine

/-- MIX under a configuration: it reads `ARG[0..4]`, and writes `RES[0]` and `ERR` only. -/
def mixCmd (c : Cfg) (s : State) : Out :=
  finish .ok { s with res := quadSet s.res 0 (mix c s.arg.a0 (mixKey s)) }

/-- MIX (R66). -/
def execMix (s : State) : Out := mixCmd cfgRef s

end Sys2Proof.Machine
end

