-- ==== Sys2Proof/Machine/Seed.lean ====
section
/-! DEFINITION. The seed-derivation engine as functions on byte strings (spec/43_seed_engine.md R100 to R110). The POOL
is a local value of these functions (spec/20_memory.md R39, spec/10_state.md R18). -/

namespace Sys2Proof.Machine

/-! ## The numeric scan (R101 to R103) -/

/-- A token found by the scan: the offset of its first byte, its line, its bytes. -/
structure Token where
  offset : Nat
  line : Nat
  text : Bytes
  deriving DecidableEq, Repr

/-- Does a token start at `c`, with `rest` behind it (R101)? -/
def startsToken (c : Byte) (rest : Bytes) : Bool :=
  isDigit c || ((isSign c || c == 0x2E) && (match rest with | d :: _ => isDigit d | [] => false))

/-- The scan from position `i`, where `b` stands, on line `line` (R101). The count bounds the number of rounds; a round
moves at least one byte on, so the length of the string is enough. -/
def scanFrom : Nat → Bytes → Nat → Nat → List Token
  | 0, _, _, _ => []
  | _ + 1, [], _, _ => []
  | n + 1, c :: rest, i, line =>
    if c = 0x0A#8 then scanFrom n rest (i + 1) (line + 1)
    else if startsToken c rest then
      let tok := tokenText (tokenParts ((c :: rest).take tokenCap))
      ⟨i, line, tok⟩ :: scanFrom n ((c :: rest).drop tok.length) (i + tok.length) line
    else scanFrom n rest (i + 1) line

/-- Every token of `D`, in order, lines counted from 1. -/
def scanTokens (d : Bytes) : List Token := scanFrom d.length d 0 1

/-- What `emit` appends for a token (R102, R103): 16 bytes, or nothing where the value is not finite. -/
def emitToken (c : Cfg) (t : Token) : Bytes :=
  let v := c.parseDec t.text
  if isFinite64 v then le32 t.offset ++ le32 t.line ++ le64 v else []

/-- `numeric_scan(D)` (R101 to R103). -/
def numericScan (c : Cfg) (d : Bytes) : Bytes := (scanTokens d).flatMap (emitToken c)

/-! ## The structural fingerprint (R104) -/

/-- `max(1, n div SAMPLE_DIV)`. -/
def strideOf (n : Nat) : Nat := max 1 (n / sampleDiv)

/-- The number of samples, `ceil(n / stride)`. -/
def sampleCount (n : Nat) : Nat := (n + strideOf n - 1) / strideOf n

/-- One sample: its offset and the four bytes there, 0x00 beyond the end. -/
def sampleAt (d : Bytes) (off : Nat) : Bytes :=
  le32 off ++ [byteAt d off, byteAt d (off + 1), byteAt d (off + 2), byteAt d (off + 3)]

/-- `fingerprint(D)` (R104): the length, the counts of newline, comma, tab, space and semicolon, the samples. -/
def fingerprint (d : Bytes) : Bytes :=
  leBytes 8 d.length ++
  ([0x0A, 0x2C, 0x09, 0x20, 0x3B] : Bytes).flatMap (fun ch => le32 (d.count ch)) ++
  (List.range (sampleCount d.length)).flatMap (fun t => sampleAt d (t * strideOf d.length))

/-! ## Pool assembly (R105) -/

/-- The tag `"NUMERIC:"`. -/
def tagNumeric : Bytes := [0x4E, 0x55, 0x4D, 0x45, 0x52, 0x49, 0x43, 0x3A]

/-- The tag `"STRUCTURE:"`. -/
def tagStructure : Bytes := [0x53, 0x54, 0x52, 0x55, 0x43, 0x54, 0x55, 0x52, 0x45, 0x3A]

/-- The tag `"RAWHASH:"`. -/
def tagRawHash : Bytes := [0x52, 0x41, 0x57, 0x48, 0x41, 0x53, 0x48, 0x3A]

/-- `assemble(num, st, hd)` (R105). -/
def assemble (num st : Bytes) (hd : Digest) : Bytes :=
  tagNumeric ++ le32 num.length ++ num ++ (tagStructure ++ st) ++ (tagRawHash ++ hd.toList)

/-! ## The precursor transform (R106) -/

/-- One block of the precursor: `chunk` is the block without its zero padding, and every read is of the untransformed
block. -/
def precursorBlock (chunk : Bytes) : Bytes :=
  (List.range chunk.length).map fun j =>
    not8 (byteAt chunk j) ^^^ byteAt chunk ((j + preBlock - preBack) % preBlock)

/-- The blocks in order; the count bounds their number. -/
def precursorFrom : Nat → Bytes → Bytes
  | 0, _ => []
  | n + 1, p => precursorBlock (p.take preBlock) ++ precursorFrom n (p.drop preBlock)

/-- `precursor(P)` (R106). -/
def precursor (p : Bytes) : Bytes := precursorFrom ((p.length + preBlock - 1) / preBlock) p

/-! ## The two byte mixers and the recursive mixer (R107 to R109) -/

/-- `mixer_a(buf)` (R107), out of place. -/
def mixerA (buf : Bytes) : Bytes :=
  (List.range buf.length).map fun i =>
    byteAt buf ((i + 3) % buf.length) ^^^ not8 (byteAt buf i) ^^^ byteAt buf (buf.length - 1 - i)

/-- `buf` padded to an even length with 0x00 (R108). -/
def padEven (buf : Bytes) : Bytes := if buf.length % 2 = 1 then buf ++ [0#8] else buf

/-- The overlay byte at index `i` of `mixer_b` (R108). -/
def overlay (bp : Bytes) (i : Nat) : Byte :=
  if i < bp.length / 2 then byteAt bp (i + bp.length / 2) else byteAt bp (i - bp.length / 2)

/-- `mixer_b(buf)` (R108), out of place; the padding position is not output. -/
def mixerB (buf : Bytes) : Bytes :=
  let bp := padEven buf
  (List.range buf.length).map fun i => byteAt bp (bp.length - 1 - i) ^^^ overlay bp i ^^^ byteAt bp i

/-- `rmix(buf, depth)` (R109): a leaf applies `mixer_a` then `mixer_b`, a node `mixer_b` then `mixer_a`. -/
def rmix : Nat → Bytes → Bytes
  | 0, buf => mixerB (mixerA buf)
  | n + 1, buf =>
    if buf.length < rmixLeaf then mixerB (mixerA buf)
    else
      let h := buf.length / 2
      mixerA (mixerB (rmix n (buf.take h) ++ rmix n (buf.drop h)))

/-! ## The whole pipeline (R100, R110) -/

/-- The pool after assembly. -/
def poolOf (c : Cfg) (d : Bytes) : Bytes := assemble (numericScan c d) (fingerprint d) (c.hash d)

/-- `extract(D)` (R100): the 32-byte seed. -/
def extractSeed (c : Cfg) (d : Bytes) : Digest :=
  c.hash (label1 ++ label2 ++ rmix rmixDepth (precursor (poolOf c d)))

/-- `RES[i]` of EXTRACT_U64: `le64(seed[8i .. 8i+8))` (R112). -/
def seedWord (seed : Digest) (i : Nat) : Word := wordOfLe ((seed.toList.drop (8 * i)).take 8)

end Sys2Proof.Machine
end

