-- ==== Sys2Proof/Machine/SeedFamily.lean ====
section
/-! DEFINITION. The seed commands EXTRACT and EXTRACT_U64 (spec/43_seed_engine.md R111, R112). -/

namespace Sys2Proof.Machine

/-- EXTRACT under a configuration: null or zero-length data, a null output buffer, a length over the capacity; else the
seed of `A[0..LEN_A)` in `OUT[0..32)`. DESIGN CHOICE: where `BUF_CAP` is below 32, R111 and R37 check no output length, and
the model stores all 32 bytes and ends with OK (log entry 18). -/
def extractCmd (c : Cfg) (dv ov : Bool) (s : State) : Out :=
  if !dv || decide (s.lenA = 0#32) then raise .invalidArgument s
  else if !ov then raise .invalidArgument s
  else if overCap c s.lenA.toNat then raise .invalidArgument s
  else finish .ok (memWrite s .out 0 (extractSeed c (inputA s)).toList)

/-- EXTRACT (R111). -/
def execExtract (dv ov : Bool) (s : State) : Out := extractCmd cfgRef dv ov s

/-- EXTRACT_U64 under a configuration: the seed as four little-endian words in `RES[0..3]`. -/
def extractU64Cmd (c : Cfg) (dv : Bool) (s : State) : Out :=
  if !dv || decide (s.lenA = 0#32) then raise .invalidArgument s
  else if overCap c s.lenA.toNat then raise .invalidArgument s
  else
    let seed := extractSeed c (inputA s)
    finish .ok { s with res := ⟨seedWord seed 0, seedWord seed 1, seedWord seed 2, seedWord seed 3⟩ }

/-- EXTRACT_U64 (R112). -/
def execExtractU64 (dv : Bool) (s : State) : Out := extractU64Cmd cfgRef dv s

end Sys2Proof.Machine
end

