-- ==== Sys2Proof/Machine/Dispatch.lean ====
section
/-! DEFINITION. One arm per command of the opcode table (spec/30_encoding.md R53). -/

namespace Sys2Proof.Machine

def exec (i : Instr) (s : State) : Host.Outcome State Fault Refusal :=
  match i with
  | .instantiate => Sys2Proof.Machine.execInstantiate s
  | .reseed => Sys2Proof.Machine.execReseed s
  | .generate ov pr len => Sys2Proof.Machine.execGenerate ov pr len s
  | .nextU64 => Sys2Proof.Machine.execNextU64 s
  | .zeroize => Sys2Proof.Machine.execZeroize s
  | .mix => Sys2Proof.Machine.execMix s
  | .extract dv ov => Sys2Proof.Machine.execExtract dv ov s
  | .extractU64 dv => Sys2Proof.Machine.execExtractU64 dv s

end Sys2Proof.Machine
end

