-- ==== Sys2Proof/Machine/Flags.lean ====
section
/-! DEFINITION. The status bits. The engine has no arithmetic flags (spec/10_state.md R29); what it has is the register
`STATUS`, composed here from `LIFE`, `ERR` and `BUSY` (R21). -/

namespace Sys2Proof.Machine

/-- The code of `LIFE` (R20). -/
def lifeCode : Life → Nat
  | .uninstantiated => 0
  | .ready => 1
  | .zeroized => 2

/-- The code of `ERR` (R21, spec/60_exceptions.md R126). -/
def errCode : ErrCode → Nat
  | .ok => 0
  | .invalidArgument => 1
  | .ioFailure => 2
  | .illegalCommand => 3

/-- The register `STATUS` (R21): `LIFE` in bits 1:0, `ERR` in bits 7:4, `BUSY` in bit 8, every other bit 0. -/
def statusWord (s : State) : Word :=
  BitVec.ofNat 64 (lifeCode s.life) ||| (BitVec.ofNat 64 (errCode s.err) <<< 4) |||
    (BitVec.ofNat 64 (if s.busy then 1 else 0) <<< 8)

end Sys2Proof.Machine
end

