-- ==== Sys2Proof/Machine/HostPort.lean ====
section
/-! DEFINITION. The host's accesses (spec/10_state.md R22 to R27, spec/20_memory.md R36, R41, R42): the register map, its
access rights, the buffers' access rights. `STATUS`, `RSCTR` and the other registers have one home each in State; the
register map is the one place that names them by offset. -/

namespace Sys2Proof.Machine

/-- The registers of the REG space (R26). -/
inductive Reg where
  | cmd
  | status
  | rsctr
  | lenA
  | lenB
  | arg (i : Fin 5)
  | res (i : Fin 4)
  deriving DecidableEq, Repr

/-- The byte offset of a register (R26). -/
def Reg.offset : Reg → Nat
  | .cmd => 0x00
  | .status => 0x08
  | .rsctr => 0x10
  | .lenA => 0x18
  | .lenB => 0x20
  | .arg i => 0x28 + 8 * i.val
  | .res i => 0x50 + 8 * i.val

/-- Every register of the map, in the order of R26. -/
def allRegs : List Reg :=
  [.cmd, .status, .rsctr, .lenA, .lenB, .arg 0, .arg 1, .arg 2, .arg 3, .arg 4, .res 0, .res 1, .res 2, .res 3]

/-- The register at a byte offset, if one is there: the others are reserved (R26). -/
def regAt (off : Nat) : Option Reg := allRegs.find? fun r => r.offset == off

/-- What the host reads from a register: `CMD` and `ARG[i]` are write-only and read as 0 (R22, R24, R27); bits 63:32 of
`LEN_A` and `LEN_B` read as 0 (R23). -/
def regValue (s : State) : Reg → Word
  | .cmd => 0#64
  | .status => statusWord s
  | .rsctr => s.drbg.rc
  | .lenA => s.lenA.setWidth 64
  | .lenB => s.lenB.setWidth 64
  | .arg _ => 0#64
  | .res i => quadGet s.res i

/-- A host write to a register other than `CMD`: `LEN_A` and `LEN_B` take bits 31:0 (R23), `ARG[i]` the word (R24), and a
write to a read-only register is ignored (R27). -/
def regStore (s : State) (r : Reg) (v : Word) : State :=
  match r with
  | .cmd => s
  | .status => s
  | .rsctr => s
  | .lenA => { s with lenA := v.setWidth 32 }
  | .lenB => { s with lenB := v.setWidth 32 }
  | .arg i => { s with arg := argSet s.arg i v }
  | .res _ => s

/-- The register an access of `width` bytes at `off` reaches; else how it stops: an offset outside the space does not
exist (R26), and an access that is not an aligned 8-byte one, or is to a reserved offset, is refused (R27). -/
def withReg (off width : Nat) (k : Reg → Out) : Out :=
  if 256 ≤ off then .fault (.noSuchRegister off)
  else if width ≠ 8 ∨ off % 8 ≠ 0 then .refused (.notAlignedWord off width)
  else
    match regAt off with
    | some r => k r
    | none => .refused (.reservedRegister off)

/-- What the host reads at a byte of a buffer: A and B read as 0 (R36). -/
def bufValue (s : State) (sp : Space) (addr : Nat) : Byte :=
  match sp with
  | .a => 0#8
  | .b => 0#8
  | .out => readByte s .out addr

/-- A host write of one byte of a buffer: a write to OUT is ignored (R36). -/
def bufPut (s : State) (sp : Space) (addr : Nat) (b : Byte) : State :=
  match sp with
  | .a => memWrite s .a addr [b]
  | .b => memWrite s .b addr [b]
  | .out => s

/-- May the host make this access while a command runs? Only a read of `STATUS` and the reset event (R140, R145). -/
def allowedWhileBusy : HostAction → Bool
  | .regRead off width => off == Reg.status.offset && width == 8
  | .reset => true
  | .regWrite _ _ _ => false
  | .bufWrite _ _ _ => false
  | .bufRead _ _ => false

/-- What one host action does. A write of `CMD` sets `BUSY` and runs the word, by `run`, to completion (R21, R22). -/
def serve (c : Cfg) (run : Word → State → Out) (a : HostAction) (s : State) : Out :=
  if s.busy && !allowedWhileBusy a then .refused .accessWhileBusy
  else
    match a with
    | .regWrite off width v =>
      withReg off width fun r =>
        if r = .cmd then run v { s with busy := true } else .next (regStore s r v)
    | .regRead off width => withReg off width fun r => .next { s with readData := regValue s r }
    | .bufWrite sp addr b =>
      if c.bufCap ≤ addr then .fault (.noSuchByte sp addr) else .next (bufPut s sp addr b)
    | .bufRead sp addr =>
      if c.bufCap ≤ addr then .fault (.noSuchByte sp addr)
      else .next { s with readData := (bufValue s sp addr).setWidth 64 }
    | .reset => .next (resetEvent s)

/-- `wr REGNAME, value` (spec/30_encoding.md R56). -/
def wr (r : Reg) (v : Word) : HostAction := .regWrite r.offset 8 v

/-- `rd REGNAME` (R56). -/
def rd (r : Reg) : HostAction := .regRead r.offset 8

end Sys2Proof.Machine
end

