-- ==== Sys2Proof/Machine/Step.lean ====
section
/-! DEFINITION. One step: the host's next action (spec/10_state.md R28; log entry 2). A command is one step, from the write
of `CMD` to the posting of `STATUS` (spec/00_scope.md R14). -/

namespace Sys2Proof.Machine

/-- What the write of `w` to `CMD` does (R22): the decoded command runs, an illegal word posts its error (R54). -/
def runCommand (w : Word) (s : State) : Out :=
  match decodeWord w with
  | .command i => exec i s
  | .illegal _ => illegalCommand s

/-- The host's next action takes effect; with none left, nothing changes (spec/60_exceptions.md R130). -/
def step (s : State) : Host.Outcome State Fault Refusal :=
  match s.script with
  | [] => .next s
  | a :: rest => serve cfgRef runCommand a { s with script := rest }

/-- `s` with the command word `w` as the host's next write of `CMD`, where `step` takes its next command from. -/
def State.withFetchWord (s : State) (nbits w : Nat) : State :=
  { s with script := .regWrite 0 8 (BitVec.ofNat 64 (w % 2 ^ nbits)) :: s.script }

end Sys2Proof.Machine
end

