-- ==== Sys2Proof/Machine/Command.lean ====
section
/-! DEFINITION. The engine with its configuration as an argument (spec/00_scope.md R1, R5): the function
`cmd : Cfg -> State -> Word64 -> State` of spec/60_exceptions.md R139. `exec` is `command` at `CFG_REF`
(`exec_eq_command` of Sys2Proof/Laws/Commands.lean). -/

namespace Sys2Proof.Machine

/-- A command's meaning under a configuration. -/
def command (c : Cfg) (i : Instr) (s : State) : Out :=
  match i with
  | .instantiate => instantiateCmd c s
  | .reseed => reseedCmd c s
  | .generate ov _ len => generateCmd c ov len s
  | .nextU64 => nextU64Cmd c s
  | .zeroize => zeroizeCmd s
  | .mix => mixCmd c s
  | .extract dv ov => extractCmd c dv ov s
  | .extractU64 dv => extractU64Cmd c dv s

/-- `cmd` of R139: what the write of `w` to `CMD` does under a configuration. -/
def cmd (c : Cfg) (s : State) (w : Word) : Out :=
  match decodeWord w with
  | .command i => command c i s
  | .illegal _ => illegalCommand s

end Sys2Proof.Machine
end

