-- ==== Sys2Proof/Machine/HostForms.lean ====
section
/-! DEFINITION. The host-side forms: the script lines and pseudo-instructions of spec/30_encoding.md R56 and R57, and the
file forms and the integration of spec/43_seed_engine.md R113 to R115. They are sequences of the host's own actions; no
command does any of it. How a host reads a file is not modelled (00_scope.md R4): a file is its content, or nothing where
reading it failed. -/

namespace Sys2Proof.Machine

/-- The write of a command's word to `CMD` (R56). -/
def issue (i : Instr) : HostAction := wr .cmd (encode i)

/-- `wrbuf` (R56): the bytes of the string written from address `a` up, one access a byte (R42). -/
def wrbufFrom (sp : Space) : Nat → Bytes → List HostAction
  | _, [] => []
  | a, b :: rest => .bufWrite sp a b :: wrbufFrom sp (a + 1) rest

/-- `rdbuf OUT, n` (R56). -/
def rdbuf (n : Nat) : List HostAction := (List.range n).map fun i => .bufRead .out i

/-- `LOADA bytes` (R57). -/
def loadA (b : Bytes) : List HostAction := wrbufFrom .a 0 b ++ [wr .lenA (BitVec.ofNat 64 b.length)]

/-- `LOADB bytes` (R57). -/
def loadB (b : Bytes) : List HostAction := wrbufFrom .b 0 b ++ [wr .lenB (BitVec.ofNat 64 b.length)]

/-- `INSTANTIATE e, n, p` (R57). -/
def instantiateForm (e n p : Word) : List HostAction :=
  [wr (.arg 0) e, wr (.arg 1) n, wr (.arg 2) p, issue .instantiate]

/-- `RESEED ent, add` (R57). -/
def reseedForm (ent add : Bytes) : List HostAction := loadA ent ++ loadB add ++ [issue .reseed]

/-- `GENERATE len, add` (R57); `ov` is 1 and `pr` is 0 by default (R56). -/
def generateForm (len : Nat) (add : Bytes) : List HostAction := loadB add ++ [issue (.generate true false len)]

/-- `MIX x, k0, k1, k2, k3` (R57). -/
def mixForm (x k0 k1 k2 k3 : Word) : List HostAction :=
  [wr (.arg 0) x, wr (.arg 1) k0, wr (.arg 2) k1, wr (.arg 3) k2, wr (.arg 4) k3, issue .mix, rd (.res 0)]

/-- `EXTRACT data` (R57). -/
def extractForm (data : Bytes) : List HostAction := loadA data ++ [issue (.extract true true)] ++ rdbuf 32

/-- What a host procedure answers: the actions it takes, or an error it reports without taking any (R113, R127). -/
inductive HostAnswer where
  | actions (l : List HostAction)
  | error (e : ErrCode)
  deriving DecidableEq, Repr

/-- `EXTRACT_FILE path` (R57, R113): a file that is missing, unreadable, short or empty is an `IOFailure`; one longer than
the configuration's `BUF_CAP` is the host's `InvalidArgument`. -/
def extractFile (c : Cfg) (content : Option Bytes) : HostAnswer :=
  match content with
  | none => .error .ioFailure
  | some [] => .error .ioFailure
  | some (b :: rest) =>
    if c.bufCap < (b :: rest).length then .error .invalidArgument else .actions (extractForm (b :: rest))

/-- The framing of one file (R114): `"FILE:"`, the path, a NUL, the content, the separator 0x1E. -/
def frameFile (path content : Bytes) : Bytes := [0x46, 0x49, 0x4C, 0x45, 0x3A] ++ path ++ [0x00] ++ content ++ [0x1E]

/-- The framing of the files in the order given (R114); `none` where one of them could not be read or is empty (R113). -/
def frameFiles : List (Bytes × Option Bytes) → Option Bytes
  | [] => some []
  | (path, some (b :: content)) :: rest =>
    match frameFiles rest with
    | some framed => some (frameFile path (b :: content) ++ framed)
    | none => none
  | (_, some []) :: _ => none
  | (_, none) :: _ => none

/-- `EXTRACT_FILES path1, ..., pathN` (R57, R114): any file failing makes the whole call an `IOFailure`. -/
def extractFiles (c : Cfg) (files : List (Bytes × Option Bytes)) : HostAnswer :=
  match frameFiles files with
  | none => .error .ioFailure
  | some framed => if c.bufCap < framed.length then .error .invalidArgument else .actions (extractForm framed)

/-- `SEED_INSTANTIATE` (R57, R115), after a successful EXTRACT_U64 that left `res`: the host reads three words of the seed
and writes them back as INSTANTIATE's operands. The fourth is not used. -/
def seedInstantiate (res : Quad Word) : List HostAction :=
  [rd (.res 0), rd (.res 1), rd (.res 2)] ++ instantiateForm res.q0 res.q1 res.q2

end Sys2Proof.Machine
end

