-- ==== Sys2Proof/Safety.lean ====
section
/-! DEFINITION. What counts as a sound state and as a safe run, in the terms the statements use. -/

namespace Sys2Proof.Machine

/-- What holds of every state between two steps: the buffers are in canonical form and inside their capacity
(spec/20_memory.md R36), no command is running (`BUSY` = 0, spec/10_state.md R28), and `ERR` is not the code that the
engine never produces (`IO_FAILURE`, R21, spec/60_exceptions.md R127). -/
def State.sound (s : State) : Bool :=
  Memory.wf cfgRef.bufCap s.bufA && Memory.wf cfgRef.bufCap s.bufB && Memory.wf cfgRef.bufCap s.bufOut &&
    !s.busy && s.err != .ioFailure

/-- A host action that reaches something that exists, in the width the interface has: an aligned 8-byte access to a
register of the map (R26, R27), a byte of a buffer below its capacity (spec/20_memory.md R36), or the reset event. -/
def HostAction.legal : HostAction → Bool
  | .regWrite off width _ => width == 8 && (regAt off).isSome
  | .regRead off width => width == 8 && (regAt off).isSome
  | .bufWrite _ addr _ => decide (addr < cfgRef.bufCap)
  | .bufRead _ addr => decide (addr < cfgRef.bufCap)
  | .reset => true

/-- However far the machine runs from `s`, it never stops. -/
def RunsOn (s : State) : Prop := ∀ n, ∃ t, Host.Core.run Sys2Proof.core n s = .next t

/-- Two states that agree on everything but the secret, `K` and `V` (spec/10_state.md R16, R17, R31). -/
def agreeButSecret (s t : State) : Prop := t = { s with drbg := { s.drbg with k := t.drbg.k, v := t.drbg.v } }

/-! ## The plain numbers some statements compare with -/

/-- `V` as the number `V[1]·2^64 + V[0]` (spec/10_state.md R17). -/
def counterNat (v : Counter) : Nat := v.hi.toNat * 2 ^ 64 + v.lo.toNat

/-- The `V` whose number is `n` modulo 2^128. -/
def counterOf (n : Nat) : Counter := ⟨BitVec.ofNat 64 n, BitVec.ofNat 64 (n / 2 ^ 64)⟩

/-- The number a binary64 encoding with sign bit 0 stands for (spec/93_implementation_defined.md G3). -/
def binary64Value (bits : Nat) : ℚ :=
  if bits / 2 ^ 52 = 0 then ((bits % 2 ^ 52 : Nat) : ℚ) * 2 ^ (-1074 : ℤ)
  else ((2 ^ 52 + bits % 2 ^ 52 : Nat) : ℚ) * 2 ^ (((bits / 2 ^ 52 : Nat) : ℤ) - 1075)

/-- `bits` encodes, with sign bit 0, the binary64 number nearest to `x`, the even one of two equally near; infinity exactly
from half a unit beyond the largest finite number on (spec/43_seed_engine.md R102; the format is PRESUMED, log entry 12). -/
def NearestBinary64 (x : ℚ) (bits : Nat) : Prop :=
  bits ≤ infinityBits ∧
  (bits < infinityBits → ∀ b, b < infinityBits →
    |x - binary64Value bits| ≤ |x - binary64Value b| ∧
    (|x - binary64Value bits| = |x - binary64Value b| → b = bits ∨ bits % 2 = 0)) ∧
  (bits = infinityBits ↔ ((2 ^ 54 - 1 : Nat) : ℚ) * 2 ^ (970 : ℕ) ≤ x)

/-! ## The token language of the numeric scan, apart from the scan (spec/43_seed_engine.md R101, R102) -/

/-- A sign character, `some true` for `'-'`. -/
def signText : Option Bool → Bytes
  | none => []
  | some true => [0x2D]
  | some false => [0x2B]

/-- Decimal digits as characters. -/
def digitText (ds : List (Fin 10)) : Bytes := ds.map fun d => BitVec.ofNat 8 (0x30 + d.val)

/-- The number that decimal digits spell, the most significant first. -/
def digitNumber (ds : List (Fin 10)) : Nat := Nat.ofDigits 10 (ds.reverse.map Fin.val)

/-- The exponent of a numeral: whether its letter is `'E'`, its sign, its digits. -/
structure NumeralExponent where
  upper : Bool
  sign : Option Bool
  digits : List (Fin 10)
  deriving DecidableEq, Repr

/-- A numeral of R101: an optional sign, integer digits, an optional dot with the digits after it, an optional exponent. -/
structure Numeral where
  sign : Option Bool
  whole : List (Fin 10)
  fraction : Option (List (Fin 10))
  exponent : Option NumeralExponent
  deriving DecidableEq, Repr

/-- The digits after the dot. -/
def Numeral.fractionDigits (n : Numeral) : List (Fin 10) := n.fraction.getD []

/-- A numeral has a digit before or after the dot, and an exponent has a digit (R101). -/
def Numeral.valid (n : Numeral) : Bool :=
  !(n.whole ++ n.fractionDigits).isEmpty &&
    match n.exponent with
    | none => true
    | some e => !e.digits.isEmpty

/-- The bytes of a numeral. -/
def Numeral.text (n : Numeral) : Bytes :=
  signText n.sign ++ digitText n.whole ++
    (match n.fraction with
      | none => []
      | some f => 0x2E :: digitText f) ++
    match n.exponent with
    | none => []
    | some e => (if e.upper then 0x45 else 0x65) :: (signText e.sign ++ digitText e.digits)

/-- The power of ten of a numeral's exponent. -/
def Numeral.power (n : Numeral) : ℤ :=
  match n.exponent with
  | none => 0
  | some e => if e.sign = some true then -(digitNumber e.digits : ℤ) else (digitNumber e.digits : ℤ)

/-- The magnitude of the decimal number a numeral spells (R102). -/
def Numeral.magnitude (n : Numeral) : ℚ :=
  (digitNumber (n.whole ++ n.fractionDigits) : ℚ) * 10 ^ (n.power - (n.fractionDigits.length : ℤ))

/-- The byte at `i` exists and is a digit. -/
def DigitAt (d : Bytes) (i : Nat) : Prop := ∃ c, d[i]? = some c ∧ 0x30 ≤ c.toNat ∧ c.toNat ≤ 0x39

/-- The start condition of R101: a digit, or a sign or dot immediately followed by a digit. -/
def StartsAt (d : Bytes) (i : Nat) : Prop :=
  DigitAt d i ∨ ((d[i]? = some 0x2B ∨ d[i]? = some 0x2D ∨ d[i]? = some 0x2E) ∧ DigitAt d (i + 1))

end Sys2Proof.Machine
end

