-- ==== Sys2Proof/WellFormed.lean ====
section
/-! DEFINITION. Well-formedness: of a command's fields (spec/30_encoding.md R50, R51) and of a configuration
(spec/00_scope.md R6, R7). -/

namespace Sys2Proof

/-- The fields of a command fit the word: `LEN` has 32 bits (R50); the other fields are single bits by their type. -/
def Instr.wellFormed : Instr → Bool
  | .instantiate => true
  | .reseed => true
  | .generate _ _ len => decide (len < 2 ^ 32)
  | .nextU64 => true
  | .zeroize => true
  | .mix => true
  | .extract _ _ => true
  | .extractU64 _ => true

/-- `v` is odd. -/
def oddWord (v : Word) : Bool := v.getLsbD 0

/-- A row of `PERM` is a permutation of 0, 1, 2, 3: its four entries differ. -/
def permRow (p : Quad (Fin 4)) : Bool :=
  decide (p.q0 ≠ p.q1 ∧ p.q0 ≠ p.q2 ∧ p.q0 ≠ p.q3 ∧ p.q1 ≠ p.q2 ∧ p.q1 ≠ p.q3 ∧ p.q2 ≠ p.q3)

/-- `C_PD` is pairwise distinct. -/
def distinctQuad (p : Quad Word) : Bool :=
  decide (p.q0 ≠ p.q1 ∧ p.q0 ≠ p.q2 ∧ p.q0 ≠ p.q3 ∧ p.q1 ≠ p.q2 ∧ p.q1 ≠ p.q3 ∧ p.q2 ≠ p.q3)

/-- Every rotation and shift amount stands in the range R6 states for it. -/
def Cfg.amountsInRange (c : Cfg) : Bool :=
  c.rot3.toList.all (fun r => decide (r < 64)) &&
  decide (1 ≤ c.shR ∧ c.shR < 64) && decide (1 ≤ c.shL ∧ c.shL < 64) &&
  [c.rN, c.rP, c.rDif, c.rProbe, c.rX1, c.rX2].all (fun r => decide (r < 64))

/-- `RC_W` fits the 64-bit register `RSCTR` (spec/10_state.md R26), and the counter can hold the 1 that INSTANTIATE and
RESEED set it to. DEDUCED: R7 names no range for it (log entry 5). -/
def Cfg.counterFits (c : Cfg) : Bool := decide (1 ≤ c.rcW ∧ c.rcW ≤ 64)

/-- The constraints of R7, and `counterFits`. That `H` has a 32-byte result and that `H` and `ParseDec` are total is in their types. -/
def Cfg.wellFormed (c : Cfg) : Bool :=
  oddWord c.cEps && c.mul3.toList.all oddWord && c.amountsInRange && distinctQuad c.cPd && c.perm.toList.all permRow &&
    c.counterFits

end Sys2Proof
end

