-- ==== Sys2Proof/Certificates/Slice0/Obligations.lean ====
section
/-! DEFINITION. The statements for the provers. `exec i s` is the meaning of a command on a state; a step runs it with
`BUSY` set and the host's action taken (`Obligations.StepRunsDecodedCommand`). A meaning always leaves `BUSY` clear. -/

open Sys2Proof Sys2Proof.Machine

/-! ## Encoding (spec/30_encoding.md) -/

/-- Every well-formed command decodes from its own word, with every field (R50 to R53). -/
def Obligations.DecodeEncodeRoundTrip : Prop :=
  ∀ i : Instr, i.wellFormed = true → decodeWord (encode i) = .command i

/-- A word that decodes is the word of what it decodes to: no bit of a command word is dropped (R50, R52). -/
def Obligations.EncodeDecodeRoundTrip : Prop :=
  ∀ (w : Word) (i : Instr), decodeWord w = .command i → encode i = w ∧ i.wellFormed = true

/-- R52: a word selects the command whose row it matches, with the fields of R50; the rows are disjoint; a word that
matches no row is illegal. -/
def Obligations.DecoderFollowsOpcodeTable : Prop :=
  ∀ w : Word,
    (∀ r ∈ opcodeRows, ∀ r' ∈ opcodeRows, w &&& r.mask = r.code → w &&& r'.mask = r'.code → r = r') ∧
    (∀ r ∈ opcodeRows, w &&& r.mask = r.code →
      ∃ i, decodeWord w = .command i ∧ i.row = r ∧
        match i with
        | .generate ov pr len => ov = w.getLsbD 49 ∧ pr = w.getLsbD 48 ∧ len = w.toNat % 2 ^ 32
        | .extract dv ov => dv = w.getLsbD 50 ∧ ov = w.getLsbD 49
        | .extractU64 dv => dv = w.getLsbD 50
        | _ => True) ∧
    ((∀ r ∈ opcodeRows, w &&& r.mask ≠ r.code) → ∃ e, decodeWord w = .illegal e)

/-- The rows are those of the table of R53, and one word of each command, written out from R50, decodes to it. -/
def Obligations.OpcodeTableAndSampleWords : Prop :=
  opcodeRows.map (fun r => (r.mnemonic, r.code, r.mask)) =
    [("INSTANTIATE", 0x0100000000000000#64, 0xFFFFFFFFFFFFFFFF#64), ("RESEED", 0x0200000000000000#64, 0xFFFFFFFFFFFFFFFF#64),
     ("GENERATE", 0x0300000000000000#64, 0xFFFCFFFF00000000#64), ("NEXT_U64", 0x0400000000000000#64, 0xFFFFFFFFFFFFFFFF#64),
     ("ZEROIZE", 0x0500000000000000#64, 0xFFFFFFFFFFFFFFFF#64), ("MIX", 0x0800000000000000#64, 0xFFFFFFFFFFFFFFFF#64),
     ("EXTRACT", 0x1000000000000000#64, 0xFFF9FFFFFFFFFFFF#64), ("EXTRACT_U64", 0x1100000000000000#64, 0xFFFBFFFFFFFFFFFF#64)] ∧
  decodeWord 0x0100000000000000#64 = .command .instantiate ∧
  decodeWord 0x0200000000000000#64 = .command .reseed ∧
  decodeWord 0x0302000000000010#64 = .command (.generate true false 16) ∧
  decodeWord 0x0400000000000000#64 = .command .nextU64 ∧
  decodeWord 0x0500000000000000#64 = .command .zeroize ∧
  decodeWord 0x0800000000000000#64 = .command .mix ∧
  decodeWord 0x1004000000000000#64 = .command (.extract true false) ∧
  decodeWord 0x1104000000000000#64 = .command (.extractU64 true) ∧
  decodeWord 0x0302000100000000#64 = .illegal (.unusedFieldSet "GENERATE") ∧
  decodeWord 0x0000000000000000#64 = .illegal (.unknownOpcode 0x00#8)

/-! ## Steps and the host's accesses (spec/10_state.md, spec/60_exceptions.md) -/

/-- R128: a word that matches no row of the opcode table sets `ERR` to ILLEGAL_COMMAND and changes nothing else. -/
def Obligations.IllegalWordPostsErrorOnly : Prop :=
  ∀ (s : State) (rest : List HostAction) (w : Word), s.busy = false → s.script = wr .cmd w :: rest →
    (∀ r ∈ opcodeRows, w &&& r.mask ≠ r.code) →
    step s = .next { s with script := rest, err := .illegalCommand }

/-- A write to `CMD` of a word that decodes runs that command: `step` is `exec`, on the state without the action just
taken and with `BUSY` set (R21, R22). The host's script is the model's own field (log entry 2). -/
def Obligations.StepRunsDecodedCommand : Prop :=
  ∀ (s : State) (rest : List HostAction) (w : Word) (i : Instr), s.busy = false → s.script = wr .cmd w :: rest →
    decodeWord w = .command i → step s = exec i { s with script := rest, busy := true }

/-- With no host action left nothing changes (R130; that the step then idles is the model's choice, log entry 2). -/
def Obligations.StepIdlesWithoutHostAction : Prop :=
  ∀ s : State, s.script = [] → step s = .next s

/-- What the host reads from each register (R19, R22 to R25, R27), and that a read changes nothing of the engine. -/
def Obligations.HostRegisterReads : Prop :=
  ∀ (s : State) (r : Reg) (rest : List HostAction), s.busy = false → s.script = rd r :: rest →
    step s = .next { s with
      script := rest
      readData := match r with
        | .cmd => 0
        | .status => statusWord s
        | .rsctr => s.drbg.rc
        | .lenA => BitVec.ofNat 64 s.lenA.toNat
        | .lenB => BitVec.ofNat 64 s.lenB.toNat
        | .arg _ => 0
        | .res i => quadGet s.res i }

/-- What a host write to each register but `CMD` does (R23, R24, R27): lengths take bits 31:0, one `ARG` register takes the
word and the others keep theirs, and a write to a read-only register is ignored. -/
def Obligations.HostRegisterWrites : Prop :=
  ∀ (s : State) (r : Reg) (v : Word) (rest : List HostAction), s.busy = false → r ≠ .cmd → s.script = wr r v :: rest →
    ∃ t, step s = .next t ∧ t = { s with script := rest, lenA := t.lenA, lenB := t.lenB, arg := t.arg } ∧
      t.lenA.toNat = (if r = .lenA then v.toNat % 2 ^ 32 else s.lenA.toNat) ∧
      t.lenB.toNat = (if r = .lenB then v.toNat % 2 ^ 32 else s.lenB.toNat) ∧
      ∀ i, argGet t.arg i = if r = .arg i then v else argGet s.arg i

/-- The fields of `STATUS` (R21). -/
def Obligations.StatusRegisterFields : Prop :=
  ∀ s : State,
    (statusWord s).extractLsb' 0 2 = (match s.life with | .uninstantiated => 0#2 | .ready => 1#2 | .zeroized => 2#2) ∧
    (statusWord s).extractLsb' 2 2 = 0#2 ∧
    (statusWord s).extractLsb' 4 4 =
      (match s.err with | .ok => 0#4 | .invalidArgument => 1#4 | .ioFailure => 2#4 | .illegalCommand => 3#4) ∧
    (statusWord s).getLsbD 8 = s.busy ∧
    (statusWord s).extractLsb' 9 55 = 0#55

/-- The register map of R26: the offset of every register, and no register anywhere else. -/
def Obligations.RegisterMapOffsets : Prop :=
  (allRegs.map Reg.offset = [0x00, 0x08, 0x10, 0x18, 0x20, 0x28, 0x30, 0x38, 0x40, 0x48, 0x50, 0x58, 0x60, 0x68]) ∧
  (∀ (off : Nat) (r : Reg), regAt off = some r ↔ off = r.offset) ∧
  (∀ off : Nat, regAt off = none ↔ off % 8 ≠ 0 ∨ 0x70 ≤ off)

/-- The register accesses that do not go on, and every access while a command runs. R27 says that a model should treat an
access that is not an aligned 8-byte one, and one to a reserved offset, as a refusal; that an offset outside the 256 bytes
faults is the model's choice (log entries 7 and 8). While `BUSY` is 1 every access is refused (R145, U3, log entry 9) but a
read of `STATUS`, which returns the status word, and the reset event (`ResetEventEffect`). -/
def Obligations.RegisterAccessesThatStop : Prop :=
  (∀ (s : State) (rest : List HostAction) (off width : Nat) (v : Word), s.busy = false →
    s.script = .regWrite off width v :: rest ∨ s.script = .regRead off width :: rest →
    (256 ≤ off → step s = .fault (.noSuchRegister off)) ∧
    (off < 256 ∧ (width ≠ 8 ∨ off % 8 ≠ 0) → step s = .refused (.notAlignedWord off width)) ∧
    (0x70 ≤ off ∧ off < 256 ∧ width = 8 ∧ off % 8 = 0 → step s = .refused (.reservedRegister off))) ∧
  ∀ (s : State) (rest : List HostAction) (a : HostAction), s.busy = true → s.script = a :: rest →
    (a ≠ rd .status → a ≠ .reset → step s = .refused .accessWhileBusy) ∧
    (a = rd .status → step s = .next { s with script := rest, readData := statusWord s } ∧
      (statusWord s).getLsbD 8 = true)

/-- The host's accesses to the buffers (R36): a byte written to A or B is there and no other byte changed; a write to OUT is
ignored; A and B read as 0, OUT reads its byte; a byte at `BUF_CAP` or beyond does not exist (log entry 8). -/
def Obligations.HostBufferAccesses : Prop :=
  ∀ (s : State) (rest : List HostAction) (sp : Space) (addr : Nat) (b : Byte), s.busy = false →
    (addr < 2 ^ 32 - 1 → s.script = .bufWrite sp addr b :: rest →
      ∃ t, step s = .next t ∧ t = { s with script := rest, bufA := t.bufA, bufB := t.bufB } ∧
        ∀ (sp' : Space) (a : Nat),
          readByte t sp' a = if sp' = sp ∧ a = addr ∧ sp ≠ .out then b else readByte s sp' a) ∧
    (addr < 2 ^ 32 - 1 → s.script = .bufRead sp addr :: rest →
      step s = .next { s with
        script := rest
        readData := match sp with
          | .a => 0
          | .b => 0
          | .out => BitVec.ofNat 64 (readByte s .out addr).toNat }) ∧
    (2 ^ 32 - 1 ≤ addr → s.script = .bufWrite sp addr b :: rest ∨ s.script = .bufRead sp addr :: rest →
      step s = .fault (.noSuchByte sp addr))

/-! ## Reset (spec/10_state.md R34, spec/70_reset_and_hazards.md) -/

/-- The reset values of R34. The three fields of the model's own are its choice (log entries 1 to 3). -/
def Obligations.ResetStateValues : Prop :=
  (∀ i, quadGet State.reset.drbg.k i = 0) ∧ State.reset.drbg.v = ⟨0, 0⟩ ∧ State.reset.drbg.rc = 0 ∧
  State.reset.life = .uninstantiated ∧ State.reset.err = .ok ∧ State.reset.busy = false ∧
  State.reset.lenA = 0 ∧ State.reset.lenB = 0 ∧ (∀ i, argGet State.reset.arg i = 0) ∧ (∀ i, quadGet State.reset.res i = 0) ∧
  (∀ (sp : Space) (a : Nat), readByte State.reset sp a = Config.powerOnByte 0 sp a)

/-- The reset event (R140): every register at its reset value, every byte of the buffers a fresh free value (log entry 1). -/
def Obligations.ResetEventEffect : Prop :=
  ∀ (s : State) (rest : List HostAction), s.script = .reset :: rest →
    ∃ t, step s = .next t ∧
      t = { State.reset with epoch := s.epoch + 1, script := rest, readData := s.readData } ∧
      ∀ (sp : Space) (a : Nat), readByte t sp a = Config.powerOnByte (s.epoch + 1) sp a

/-- R154: what the host sees right after reset with no other action. The value the host read before (`readData`, log entry
3) is arbitrary in the first clause, so the 0 is the read's. -/
def Obligations.FactsFromReset : Prop :=
  (∀ (r : Reg) (v : Word), r = .status ∨ r = .rsctr ∨ (∃ i, r = .res i) →
    ∃ t, step { State.reset with script := [rd r], readData := v } = .next t ∧ t.readData = 0) ∧
  (∃ t u, step { State.reset with script := [issue .nextU64] } = .next t ∧
    step { State.reset with script := [issue (.generate true false 8)] } = .next u ∧
    t.res.q0 = block cfgRef ⟨1, 0⟩ ⟨0, 0, 0, 0⟩ ∧ t.res.q0 = 0xB586CBC959D2B50B#64 ∧
    memRead u .out 0 8 = [0x0B, 0xB5, 0xD2, 0x59, 0xC9, 0xCB, 0x86, 0xB5] ∧
    u.drbg.k = t.drbg.k ∧ u.drbg.v = t.drbg.v) ∧
  (∃ t, step { State.reset with script := [issue (.extract true true)] } = .next t ∧ t.err = .invalidArgument) ∧
  (∃ t, step { State.reset with script := [issue .reseed] } = .next t ∧ t.err = .ok ∧
    t.drbg = { update cfgRef State.reset.drbg (some (makePD cfgRef ⟨0, 0, 0, 0⟩ [] [])) with rc := 1 }) ∧
  (∃ t, step { State.reset with script := [issue .mix] } = .next t ∧
    t.res.q0 = mix cfgRef 0 ⟨0, 0, 0, 0⟩ ∧ t.res.q0 = 0x9C5703922E6AF32E#64)

/-! ## Invariants and whole-machine rules -/

/-- Every step from a sound state leads to a sound state: buffers canonical and inside their capacity, no command running,
`ERR` never IO_FAILURE. -/
def Obligations.StepKeepsSoundState : Prop :=
  ∀ s t : State, s.sound = true → step s = .next t → t.sound = true

/-- The state after reset is sound. -/
def Obligations.ResetIsSound : Prop := State.reset.sound = true

/-- A host whose accesses all reach something that exists never stops the machine, whatever words it writes to `CMD`:
no command faults or is refused. -/
def Obligations.LegalHostNeverStopsTheMachine : Prop :=
  ∀ s : State, s.busy = false → s.script.all HostAction.legal = true → RunsOn s

/-- The lifecycle (R20, R96): reset sets UNINSTANTIATED, INSTANTIATE sets READY, ZEROIZE sets ZEROIZED, every other command
keeps it, and no command's other effects depend on it. -/
def Obligations.LifecycleTransitions : Prop :=
  State.reset.life = .uninstantiated ∧ (∀ s, (resetEvent s).life = .uninstantiated) ∧
  ∀ (i : Instr) (s t : State), exec i s = .next t →
    t.life = (match i with | .instantiate => .ready | .zeroize => .zeroized | _ => s.life) ∧
    ∀ l : Life, exec i { s with life := l } =
      .next { t with life := match i with | .instantiate => .ready | .zeroize => .zeroized | _ => l }

/-- The reseed counter (R19, R90 to R94): 1 after INSTANTIATE and RESEED, 0 after ZEROIZE, +1 for NEXT_U64 and for a GENERATE
with empty additional input, +2 for a GENERATE with additional input, else unchanged. -/
def Obligations.ReseedCounterLaws : Prop :=
  ∀ (i : Instr) (s t : State), i.wellFormed = true → exec i s = .next t →
    t.drbg.rc = match i with
      | .instantiate => 1
      | .reseed => 1
      | .generate ov _ len =>
        if len ≠ 0 ∧ ov = false then s.drbg.rc else if s.lenB = 0 then s.drbg.rc + 1 else s.drbg.rc + 2
      | .nextU64 => s.drbg.rc + 1
      | .zeroize => 0
      | .mix => s.drbg.rc
      | .extract _ _ => s.drbg.rc
      | .extractU64 _ => s.drbg.rc

/-- The counter strictly increases across every successful GENERATE and every NEXT_U64, short of a wrap (R97, R151). -/
def Obligations.ReseedCounterIncreases : Prop :=
  ∀ (s t : State), s.drbg.rc.toNat < 2 ^ 64 - 2 →
    (exec .nextU64 s = .next t → s.drbg.rc.toNat < t.drbg.rc.toNat) ∧
    (∀ ov pr len, len < 2 ^ 32 → exec (.generate ov pr len) s = .next t → t.err = .ok →
      s.drbg.rc.toNat < t.drbg.rc.toNat)

/-- R125: what any word written to `CMD` does either ends with `ERR` = OK, or changes nothing but `ERR`; the command is then
no longer running. -/
def Obligations.FailedCommandChangesOnlyErr : Prop :=
  ∀ (w : Word) (s : State), ∃ t, runCommand w s = .next t ∧ t.busy = false ∧
    (t.err = .ok ∨ t = { s with err := t.err, busy := false })

/-- Every cause of every error code a command can end with (R126), in a configuration of any capacity. That EXTRACT ends with
OK where the capacity is below the 32 bytes it stores is the model's choice (log entry 18). -/
def Obligations.ErrorCauses : Prop :=
  ∀ (c : Cfg) (i : Instr) (s t : State), command c i s = .next t →
    t.err = match i with
      | .instantiate => .ok
      | .reseed => if c.bufCap < s.lenA.toNat ∨ c.bufCap < s.lenB.toNat then .invalidArgument else .ok
      | .generate ov _ len =>
        if (len ≠ 0 ∧ ov = false) ∨ c.bufCap < len ∨ c.bufCap < s.lenB.toNat then .invalidArgument else .ok
      | .nextU64 => .ok
      | .zeroize => .ok
      | .mix => .ok
      | .extract dv ov =>
        if dv = false ∨ s.lenA = 0 ∨ ov = false ∨ c.bufCap < s.lenA.toNat then .invalidArgument else .ok
      | .extractU64 dv => if dv = false ∨ s.lenA = 0 ∨ c.bufCap < s.lenA.toNat then .invalidArgument else .ok

/-- What each command may write (R38): everything else keeps its value, every byte of A and B among it, and every byte of
OUT but the bytes a GENERATE or an EXTRACT stores, which stand from address 0 up. -/
def Obligations.CommandWriteFrames : Prop :=
  ∀ (i : Instr) (s t : State), exec i s = .next t →
    t.lenA = s.lenA ∧ t.lenB = s.lenB ∧ t.arg = s.arg ∧ t.bufA = s.bufA ∧ t.bufB = s.bufB ∧ t.epoch = s.epoch ∧
    t.script = s.script ∧ t.readData = s.readData ∧ t.busy = false ∧
    (∀ a, readByte t .a a = readByte s .a a) ∧ (∀ a, readByte t .b a = readByte s .b a) ∧
    match i with
    | .instantiate => t.res = s.res ∧ (∀ a, readByte t .out a = readByte s .out a)
    | .reseed => t.res = s.res ∧ t.life = s.life ∧ (∀ a, readByte t .out a = readByte s .out a)
    | .generate _ _ len => t.res = s.res ∧ t.life = s.life ∧ (∀ a, len ≤ a → readByte t .out a = readByte s .out a)
    | .nextU64 => t.res = { s.res with q0 := t.res.q0 } ∧ t.life = s.life ∧ (∀ a, readByte t .out a = readByte s .out a)
    | .zeroize => t.res = s.res ∧ (∀ a, readByte t .out a = readByte s .out a)
    | .mix => t.res = { s.res with q0 := t.res.q0 } ∧ t.drbg = s.drbg ∧ t.life = s.life ∧
        (∀ a, readByte t .out a = readByte s .out a)
    | .extract _ _ => t.res = s.res ∧ t.drbg = s.drbg ∧ t.life = s.life ∧
        (∀ a, 32 ≤ a → readByte t .out a = readByte s .out a)
    | .extractU64 _ => t.drbg = s.drbg ∧ t.life = s.life ∧ (∀ a, readByte t .out a = readByte s .out a)

/-- R36: bytes of A past `LEN_A` and of B past `LEN_B` never influence a command: replace them by any others, and it does
the same. -/
def Obligations.UnreadInputBytesNeverInfluence : Prop :=
  ∀ (i : Instr) (s t : State) (a b : Buffer),
    (∀ x, x < s.lenA.toNat → readByte { s with bufA := a, bufB := b } .a x = readByte s .a x) →
    (∀ x, x < s.lenB.toNat → readByte { s with bufA := a, bufB := b } .b x = readByte s .b x) →
    exec i s = .next t → exec i { s with bufA := a, bufB := b } = .next { t with bufA := a, bufB := b }

/-- `K` and `V` have no read path (R16, R17, R31, R133): over two states that differ in nothing else, every host action but
a DRBG command or a reset has the same effect on everything else, the value it reads among it, and leaves `K` and `V`. -/
def Obligations.SecretHasNoReadPath : Prop :=
  ∀ (s t : State) (a : HostAction) (rest : List HostAction), agreeButSecret s t → s.script = a :: rest → a ≠ .reset →
    (∀ w, a = wr .cmd w →
      decodeWord w ≠ .command .instantiate ∧ decodeWord w ≠ .command .reseed ∧ decodeWord w ≠ .command .nextU64 ∧
      decodeWord w ≠ .command .zeroize ∧ ∀ ov pr len, decodeWord w ≠ .command (.generate ov pr len)) →
    (∃ s' t', step s = .next s' ∧ step t = .next t' ∧ agreeButSecret s' t' ∧ s'.drbg = s.drbg ∧ t'.drbg = t.drbg) ∨
    (∃ f, step s = .fault f ∧ step t = .fault f) ∨ (∃ r, step s = .refused r ∧ step t = .refused r)

/-- Zeroize then instantiate is instantiate (R97 b): the whole state is the same. -/
def Obligations.ZeroizeThenInstantiateIsInstantiate : Prop :=
  ∀ s t : State, exec .zeroize s = .next t → exec .instantiate t = exec .instantiate s

/-- What does not depend on the constants (R19, R20, R37, R92, R111, R126): under any two configurations of the same capacity
a command ends with the same status and lifecycle, with the same reseed counter where the counters are as wide, and with the
same addresses of OUT listed. That OUT is a list of the addresses written since the last reset is the model's representation
(log entry 1), and so is what EXTRACT does where the capacity is below 32 (log entry 18). -/
def Obligations.ControlIsConfigurationIndependent : Prop :=
  ∀ (c c' : Cfg) (i : Instr) (s t : State), c.bufCap = c'.bufCap → command c i s = .next t →
    ∃ t', command c' i s = .next t' ∧ t'.err = t.err ∧ t'.life = t.life ∧
      (c.rcW = c'.rcW → t'.drbg.rc = t.drbg.rc) ∧
      t'.bufOut.map Prod.fst = t.bufOut.map Prod.fst

/-! ## The result of each command -/

/-- MIX (R66): its one word, and its whole effect. -/
def Obligations.MixResult : Prop :=
  decodeWord 0x0800000000000000#64 = .command .mix ∧
  ∀ s : State, exec .mix s = .next { s with
    res := { s.res with q0 := mix cfgRef (argGet s.arg 0) ⟨argGet s.arg 1, argGet s.arg 2, argGet s.arg 3, argGet s.arg 4⟩ }
    err := .ok, busy := false }

/-- INSTANTIATE (R90): combine, expand, derive from the 24 raw bytes under the expanded key, update, and `RC` = 1. Nothing of
the previous `K`, `V`, `RC` or `LIFE` is read. -/
def Obligations.InstantiateResult : Prop :=
  ∀ s : State,
    let e := argGet s.arg 0
    let n := argGet s.arg 1
    let p := argGet s.arg 2
    let w := expand cfgRef (e ^^^ rotl64 n 21 ^^^ rotl64 p 42)
    let u := update cfgRef ⟨w.1, w.2, 0⟩ (some (makePD cfgRef w.1 (le64 e ++ le64 n ++ le64 p) []))
    exec .instantiate s = .next { s with drbg := ⟨u.k, u.v, 1⟩, life := .ready, err := .ok, busy := false }

/-- RESEED (R91): derive from the two byte strings under the current key, update, and only then `RC` = 1. It always
succeeds under `CFG_REF`, the two strings empty included, in every lifecycle state. -/
def Obligations.ReseedResult : Prop :=
  ∀ s : State,
    let e := (List.range s.lenA.toNat).map (readByte s .a)
    let ad := (List.range s.lenB.toNat).map (readByte s .b)
    let u := update cfgRef s.drbg (some (makePD cfgRef s.drbg.k e ad))
    exec .reseed s = .next { s with drbg := ⟨u.k, u.v, 1⟩, err := .ok, busy := false }

/-- GENERATE (R92), whatever `PR` is: the pre-update where there is additional input; byte `j` of OUT is byte `j mod 8` of
the block of `V` advanced `j div 8 + 1` times, under the key of the whole command; bytes from `LEN` on keep their value;
then the post-update. -/
def Obligations.GenerateResult : Prop :=
  ∀ (s : State) (ov pr : Bool) (len : Nat), len < 2 ^ 32 → (len = 0 ∨ ov = true) →
    let ad := (List.range s.lenB.toNat).map (readByte s .b)
    let d := if s.lenB = 0 then s.drbg else update cfgRef s.drbg (some (makePD cfgRef s.drbg.k [] ad))
    ∃ t, exec (.generate ov pr len) s = .next t ∧
      t = { s with drbg := t.drbg, bufOut := t.bufOut, err := .ok, busy := false } ∧
      t.drbg = update cfgRef { d with v := counterOf (counterNat d.v + (len + 7) / 8) } none ∧
      (∀ j, j < len → (readByte t .out j).toNat =
        (block cfgRef (counterOf (counterNat d.v + (j / 8 + 1))) d.k).toNat / 256 ^ (j % 8) % 256) ∧
      (∀ a, len ≤ a → readByte t .out a = readByte s .out a)

/-- GENERATE with a null output buffer and a length fails first, with nothing but `ERR` changed (R92). -/
def Obligations.GenerateNullOutputFails : Prop :=
  ∀ (s : State) (pr : Bool) (len : Nat), len ≠ 0 →
    exec (.generate false pr len) s = .next { s with err := .invalidArgument, busy := false }

/-- The output bytes for a shorter length are the first of those for a longer one (R92). -/
def Obligations.OutputStreamPrefix : Prop :=
  ∀ (c : Cfg) (k : Quad Word) (v : Counter) (m n : Nat), m ≤ n →
    stream c k v m = (stream c k v n).take m ∧ (stream c k v n).length = n

/-- NEXT_U64 (R93). -/
def Obligations.NextU64Result : Prop :=
  ∀ s : State,
    let v := vInc s.drbg.v
    exec .nextU64 s = .next { s with
      drbg := update cfgRef ⟨s.drbg.k, v, s.drbg.rc⟩ none
      res := { s.res with q0 := block cfgRef v s.drbg.k }
      err := .ok, busy := false }

/-- NEXT_U64 is GENERATE of 8 bytes with no additional input, its word the bytes read little-endian (R93). -/
def Obligations.NextU64IsGenerateOfEight : Prop :=
  ∀ (s t u : State) (pr : Bool), s.lenB = 0 → exec .nextU64 s = .next t → exec (.generate true pr 8) s = .next u →
    u.drbg = t.drbg ∧ t.res.q0 = wordOfLe (memRead u .out 0 8) ∧ t.bufOut = s.bufOut ∧ u.res = s.res

/-- ZEROIZE (R94): `K`, `V` and `RC` zero, ZEROIZED, and nothing else: `ARG`, `RES`, the lengths and the buffers stay (R149). -/
def Obligations.ZeroizeResult : Prop :=
  ∀ s : State, exec .zeroize s = .next { s with
    drbg := ⟨⟨0, 0, 0, 0⟩, ⟨0, 0⟩, 0⟩, life := .zeroized, err := .ok, busy := false }

/-- EXTRACT (R111): byte `j` of the seed of `A[0..LEN_A)` in `OUT[j]`, the other bytes and everything else unchanged. -/
def Obligations.ExtractResult : Prop :=
  ∀ s : State, s.lenA ≠ 0 →
    let d := (List.range s.lenA.toNat).map (readByte s .a)
    ∃ t, exec (.extract true true) s = .next t ∧
      t = { s with bufOut := t.bufOut, err := .ok, busy := false } ∧
      (∀ j : Fin 32, readByte t .out j.val = (extractSeed cfgRef d)[j]) ∧
      (∀ a, 32 ≤ a → readByte t .out a = readByte s .out a)

/-- EXTRACT_U64 (R112): byte `k` of `RES[i]`, from the least significant, is byte `8i + k` of the seed; everything else is
unchanged. -/
def Obligations.ExtractU64Result : Prop :=
  ∀ s : State, s.lenA ≠ 0 →
    let d := (List.range s.lenA.toNat).map (readByte s .a)
    ∃ t, exec (.extractU64 true) s = .next t ∧
      t = { s with res := t.res, err := .ok, busy := false } ∧
      ∀ (i : Fin 4) (k : Fin 8), (quadGet t.res i).extractLsb' (8 * k.val) 8 = (extractSeed cfgRef d).toList.getD (8 * i.val + k.val) 0

/-- The failing cases of the two seed commands (R111, R112): null or zero-length data, a null output buffer. -/
def Obligations.ExtractErrors : Prop :=
  ∀ (s : State) (dv ov : Bool),
    (dv = false ∨ s.lenA = 0 ∨ ov = false →
      exec (.extract dv ov) s = .next { s with err := .invalidArgument, busy := false }) ∧
    (dv = false ∨ s.lenA = 0 →
      exec (.extractU64 dv) s = .next { s with err := .invalidArgument, busy := false })

/-! ## Host scripts (spec/30_encoding.md R57, spec/43_seed_engine.md R115) -/

/-- `LOADA` and `LOADB` (R57): after their actions the operand byte string is the one loaded, and nothing else changed. -/
def Obligations.LoadFormsFillOperands : Prop :=
  ∀ (s : State) (b : Bytes) (rest : List HostAction), s.busy = false → b.length < 2 ^ 32 →
    (∃ t, Host.Core.run Sys2Proof.core (b.length + 1) { s with script := loadA b ++ rest } = .next t ∧
      t = { s with script := rest, bufA := t.bufA, lenA := t.lenA } ∧ t.lenA.toNat = b.length ∧
      (∀ i, i < b.length → readByte t .a i = b.getD i 0) ∧ ∀ a, b.length ≤ a → readByte t .a a = readByte s .a a) ∧
    (∃ t, Host.Core.run Sys2Proof.core (b.length + 1) { s with script := loadB b ++ rest } = .next t ∧
      t = { s with script := rest, bufB := t.bufB, lenB := t.lenB } ∧ t.lenB.toNat = b.length ∧
      (∀ i, i < b.length → readByte t .b i = b.getD i 0) ∧ ∀ a, b.length ≤ a → readByte t .b a = readByte s .b a)

/-- File to seed to stream (R115): after EXTRACT_U64 the seven actions of `SEED_INSTANTIATE` instantiate the generator from
the first three little-endian words of the seed of `A[0..LEN_A)`. -/
def Obligations.SeedInstantiatesTheGenerator : Prop :=
  ∀ s t : State, s.lenA ≠ 0 → exec (.extractU64 true) s = .next t →
    let seed := (extractSeed cfgRef ((List.range s.lenA.toNat).map (readByte s .a))).toList
    let e := wordOfLe (seed.take 8)
    let n := wordOfLe ((seed.drop 8).take 8)
    let p := wordOfLe ((seed.drop 16).take 8)
    ∃ u, Host.Core.run Sys2Proof.core 7 { t with script := seedInstantiate t.res } = .next u ∧
      exec .instantiate { t with script := [], readData := p, arg := { t.arg with a0 := e, a1 := n, a2 := p } } = .next u

/-! ## The functions inside (spec/40_mixcore.md, spec/41_drbg_functions.md, spec/43_seed_engine.md, spec/44_hash.md) -/

/-- The reference configuration meets the constraints of R7, and its counter width is from 1 to 64, a range that R7 does not
name (DEDUCED, log entry 5). -/
def Obligations.ReferenceConfigurationIsWellFormed : Prop := cfgRef.wellFormed = true

/-- R10: `bitlen` is 0 at 0 and else the number `b` with `2^(b−1) ≤ x < 2^b`; `popcount` counts the one bits. -/
def Obligations.BitCounts : Prop :=
  ∀ x : Word,
    (x = 0 → bitlen x = 0) ∧ (x ≠ 0 → bitlen x = Nat.log 2 x.toNat + 1) ∧ bitlen x ≤ 64 ∧
    popcount x = ((List.range 64).filter x.getLsbD).length ∧ popcount x ≤ 64

/-- R61: for `n` below 2^34 `isqrt` is the `r` with `r·r ≤ n < (r+1)·(r+1)`. -/
def Obligations.IsqrtIsFloorOfRoot : Prop :=
  ∀ n : Nat, n < 2 ^ 34 → isqrt n * isqrt n ≤ n ∧ n < (isqrt n + 1) * (isqrt n + 1)

/-- R63: at every depth `d` the epsilon channel is the XOR of its rounds 0 to `min(d, 6)`, each with its key word
`K[i mod 4]`, its prime and its rotation `(13 + 7i) mod 64`; so key words that the depth does not reach have no effect. -/
def Obligations.EpsilonRoundsAndKeyWords : Prop :=
  ∀ (c : Cfg) (x : Word) (k : Quad Word),
    (∀ d : BitVec 6,
      let term := fun (i : Nat) (key prime : Word) (rot : Nat) =>
        if i ≤ d.toNat then rotl64 (((x ^^^ key) + prime) * c.cEps) rot else 0
      epsilon c x d k =
        term 0 k.q0 3 13 ^^^ term 1 k.q1 5 20 ^^^ term 2 k.q2 7 27 ^^^ term 3 k.q3 11 34 ^^^ term 4 k.q0 13 41 ^^^
          term 5 k.q1 17 48 ^^^ term 6 k.q2 19 55) ∧
    (∀ (d : BitVec 6) (k' : Quad Word), (∀ i : Fin 4, i.val ≤ d.toNat → quadGet k i = quadGet k' i) →
      epsilon c x d k = epsilon c x d k')

/-- R70: `v_inc` adds 1 to `V[1]·2^64 + V[0]` modulo 2^128. -/
def Obligations.CounterIncrementModulo128 : Prop :=
  ∀ v : Counter, counterNat (vInc v) = (counterNat v + 1) % 2 ^ 128

/-- R73: the shell chooses 3 to 6 rounds, and the row of `PERM` the round count goes with is a permutation of the lanes. -/
def Obligations.BlockSchedule : Prop :=
  ∀ shell : BitVec 3,
    roundsOf shell = (match shell.toNat with | 0 => 3 | 1 => 4 | 2 => 5 | 3 => 6 | 4 => 3 | 5 => 4 | 6 => 5 | _ => 6) ∧
    ∀ i : Fin 4, ∃ j : Fin 4, quadGet cfgRef.perm[shell.toFin] j = i

/-- R76: there are `ceil(n/8)` lanes, and lane `q` is the sum of byte `8q + t` times `2^(8t)`, bytes beyond the end 0. -/
def Obligations.LanePacking : Prop :=
  ∀ b : Bytes, (lanes b).length = (b.length + 7) / 8 ∧
    ∀ q, q < (lanes b).length →
      ((lanes b).getD q 0).toNat = ((List.range 8).map fun t => (b.getD (8 * q + t) 0).toNat * 2 ^ (8 * t)).sum

/-- R148 (a): a byte string and the same string with zero bytes up to the end of its last lane derive the same PD. -/
def Obligations.ZeroPaddingCollision : Prop :=
  ∀ (c : Cfg) (k : Quad Word) (b x : Bytes) (n : Nat), b ≠ [] → b.length % 8 + n ≤ 8 → b.length % 8 ≠ 0 →
    makePD c k (b ++ List.replicate n 0) x = makePD c k b x ∧ makePD c k x (b ++ List.replicate n 0) = makePD c k x b

/-- R148 (b): one string gives the same PD in either role, so a RESEED with (`X`, empty) is one with (empty, `X`). -/
def Obligations.DerivationRoleSymmetry : Prop :=
  (∀ (c : Cfg) (k : Quad Word) (x : Bytes), makePD c k x [] = makePD c k [] x) ∧
  ∀ (s t u : State), t = { s with bufA := s.bufB, bufB := s.bufA, lenA := s.lenB, lenB := s.lenA } → s.lenB = 0 →
    (∀ a, a < s.lenA.toNat → readByte t .b a = readByte s .a a) →
    exec .reseed s = .next u → ∃ u', exec .reseed t = .next u' ∧ u'.drbg = u.drbg

/-- R78: the diffusion is invertible under a given key. -/
def Obligations.DiffusionIsInvertible : Prop :=
  ∀ (c : Cfg) (k : Quad Word) (p q : Quad Word), diffuse c k p = diffuse c k q → p = q

/-- R80: the update in closed form: four counters one apart, four blocks under the old key, the new key from the old, the
counter from the whole new key, one more in `RC`: modulo 2^64 where `RC_W` is 64 (R19, R80); that it is modulo `2^RC_W` at any other width is the model's
(DEDUCED, log entry 5). -/
def Obligations.UpdateFormula : Prop :=
  ∀ (c : Cfg) (d : Drbg) (pd : Option (Quad Word)),
    let v := fun i : Nat => counterOf (counterNat d.v + i)
    let t := fun i : Fin 4 => block c (v (i.val + 1)) d.k ^^^ (match pd with | none => 0 | some p => quadGet p i)
    let u := update c d pd
    (∀ i : Fin 4, quadGet u.k i = mix c (t i + c.cUpd * BitVec.ofNat 64 i.val) d.k) ∧
    u.v.lo = (v 4).lo ^^^ mix c (t 0 ^^^ t 2) u.k ∧
    u.v.hi = (v 4).hi ^^^ mix c (t 1 ^^^ t 3) u.k ∧
    u.rc = BitVec.ofNat 64 ((d.rc.toNat + 1) % 2 ^ c.rcW) ∧ (c.rcW = 64 → u.rc = d.rc + 1)

/-- R101, R103: the scan finds the tokens of R101 and no others. Every token lies in the input where it says, has 1 to 59
bytes with a digit and no newline among them, and is on the line that the newlines before it give; a token starts where the
start condition holds, and is the longest numeral at the head of its 59-byte window; the tokens follow one another without
overlap; and every place where the start condition holds, so every digit, lies inside some token. -/
def Obligations.ScannedTokens : Prop :=
  ∀ d : Bytes,
    (∀ t ∈ scanTokens d,
      t.text = (d.drop t.offset).take t.text.length ∧ t.offset + t.text.length ≤ d.length ∧
      1 ≤ t.text.length ∧ t.text.length ≤ 59 ∧ (∃ c ∈ t.text, isDigit c = true) ∧ 0x0A#8 ∉ t.text ∧
      t.line = 1 + (d.take t.offset).count 0x0A#8 ∧
      StartsAt d t.offset ∧ (∃ n : Numeral, n.valid = true ∧ n.text = t.text) ∧
      ∀ n : Numeral, n.valid = true → n.text <+: (d.drop t.offset).take 59 → n.text.length ≤ t.text.length) ∧
    ((scanTokens d).Pairwise fun t u => t.offset + t.text.length ≤ u.offset) ∧
    ∀ i, StartsAt d i → ∃ t ∈ scanTokens d, t.offset ≤ i ∧ i < t.offset + t.text.length

/-- R39, R105: the pool is 90 bytes, 16 for each accepted token and 8 for each sample; a short input has one sample a byte,
a longer one 128 to 192. -/
def Obligations.PoolLengthFormula : Prop :=
  ∀ (c : Cfg) (d : Bytes),
    (poolOf c d).length = 90 +
      16 * ((scanTokens d).filter fun t => isFinite64 (c.parseDec t.text)).length + 8 * sampleCount d.length ∧
    (d.length ≤ 255 → sampleCount d.length = d.length) ∧
    (256 ≤ d.length → 128 ≤ sampleCount d.length ∧ sampleCount d.length ≤ 192)

/-- R106 to R109: the precursor, the two byte mixers and the recursive mixer keep the length. -/
def Obligations.ByteMixersKeepLength : Prop :=
  ∀ (b : Bytes) (n : Nat), (precursor b).length = b.length ∧ (mixerA b).length = b.length ∧
    (mixerB b).length = b.length ∧ (rmix n b).length = b.length

/-- R106: byte `i` of the precursor is the complement of byte `i` XOR the byte five places before it in its 256-byte block,
round the block's end, where bytes beyond the string are 0. -/
def Obligations.PrecursorByteFormula : Prop :=
  ∀ (p : Bytes) (i : Nat), i < p.length →
    (precursor p).getD i 0 =
      not8 (p.getD i 0) ^^^ (p.getD (i / 256 * 256 + (i % 256 + 251) % 256) 0)

/-- R121: the padded message is the message, 0x80, the fewest zero bytes that make it whole 64-byte blocks, and the length
in bits, most significant byte first. -/
def Obligations.HashPadding : Prop :=
  ∀ m : Bytes, m.length < 2 ^ 61 →
    ∃ z, z < 64 ∧ shaPad m = m ++ [0x80#8] ++ List.replicate z 0#8 ++ beBytes 8 (8 * m.length) ∧
      (shaPad m).length % 64 = 0 ∧ z = (55 + 64 * (m.length / 64 + 1) - m.length) % 64 ∧
      fromBe (beBytes 8 (8 * m.length)) = 8 * m.length

/-- R102: the roundings of `ParseDec`, of a ratio and of `n·10^k`, give the nearest binary64 number, ties to even; and so
does `ParseDec` itself of the magnitude that a token spells, with the sign in bit 63, so `"-0"` gives negative zero; it is
finite unless the magnitude rounds to infinity. The format of binary64 is PRESUMED (log entry 12). -/
def Obligations.RoundingIsToNearestEven : Prop :=
  (∀ p q : Nat, 0 < p → 0 < q → NearestBinary64 ((p : ℚ) / q) (roundRatio p q)) ∧
  (∀ (n : Nat) (k : Int), NearestBinary64 ((n : ℚ) * 10 ^ k) (roundDecimal n k)) ∧
  ∀ n : Numeral, n.valid = true →
    let v := parseDecRef n.text
    NearestBinary64 n.magnitude (v.toNat % 2 ^ 63) ∧ v.getLsbD 63 = decide (n.sign = some true) ∧
      isFinite64 v = decide (v.toNat % 2 ^ 63 < infinityBits)
end

