-- ==== Sys2Proof/Laws/Bits.lean ====
section
/-! SUPPORT. Small lemmas about the register groups and the byte encodings of Sys2Proof/Machine/Bits.lean. -/

namespace Sys2Proof.Machine

@[simp] theorem quadGet_quadSet_same {α : Type} (q : Quad α) (i : Fin 4) (x : α) : quadGet (quadSet q i x) i = x := by
  fin_cases i <;> rfl

theorem quadGet_quadSet_other {α : Type} (q : Quad α) {i j : Fin 4} (x : α) (h : j ≠ i) :
    quadGet (quadSet q i x) j = quadGet q j := by
  fin_cases i <;> fin_cases j <;> first | rfl | exact absurd rfl h

/-- Two groups with the same entry at every index are the same group. -/
theorem quad_ext_get {α : Type} {p q : Quad α} (h : ∀ i, quadGet p i = quadGet q i) : p = q := by
  cases p; cases q
  exact Quad.mk.injEq .. ▸ ⟨h 0, h 1, h 2, h 3⟩

@[simp] theorem argGet_argSet_same (r : ArgFile) (i : Fin 5) (x : Word) : argGet (argSet r i x) i = x := by
  fin_cases i <;> rfl

theorem argGet_argSet_other (r : ArgFile) {i j : Fin 5} (x : Word) (h : j ≠ i) :
    argGet (argSet r i x) j = argGet r j := by
  fin_cases i <;> fin_cases j <;> first | rfl | exact absurd rfl h

@[simp] theorem mod4_val (n : Nat) : (mod4 n).val = n % 4 := rfl

@[simp] theorem leBytes_length (n v : Nat) : (leBytes n v).length = n := by
  induction n generalizing v with
  | zero => rfl
  | succ n ih => simp [leBytes, ih]

@[simp] theorem le64_length (v : Word) : (le64 v).length = 8 := leBytes_length 8 v.toNat

@[simp] theorem le32_length (v : Nat) : (le32 v).length = 4 := leBytes_length 4 v

@[simp] theorem beBytes_length (n v : Nat) : (beBytes n v).length = n := by simp [beBytes]

/-- Reading a little-endian encoding back gives the value modulo its width. -/
theorem fromLe_leBytes (n v : Nat) : fromLe (leBytes n v) = v % 256 ^ n := by
  induction n generalizing v with
  | zero => simp [leBytes, fromLe, Nat.mod_one]
  | succ n ih =>
    simp only [leBytes, fromLe, ih, BitVec.toNat_ofNat]
    have h : 256 ^ (n + 1) = 256 * 256 ^ n := by rw [pow_succ, mul_comm]
    rw [h, Nat.mod_mul]

/-- `le64` and `LE64` are inverses (R8). -/
@[simp] theorem wordOfLe_le64 (v : Word) : wordOfLe (le64 v) = v := by
  have h : v.toNat < 2 ^ 64 := v.isLt
  apply BitVec.eq_of_toNat_eq
  simp only [wordOfLe, le64, fromLe_leBytes, BitVec.toNat_ofNat]
  omega

end Sys2Proof.Machine
end

