-- ==== Sys2Proof/Laws/Memory.lean ====
section
/-! SUPPORT. The laws of the buffers (Sys2Proof/Machine/Ops.lean): what a store changes and leaves alone, and that every
operation keeps the canonical form. -/

namespace Sys2Proof.Machine

/-! ## One byte -/

theorem bufLookup_of_lt {cap lo : Nat} {m : Buffer} {a : Nat} (hm : bufRising cap lo m = true) (ha : a < lo) :
    bufLookup m a = none := by
  induction m generalizing lo with
  | nil => rfl
  | cons e rest ih =>
    obtain ⟨x, y⟩ := e
    simp only [bufRising, Bool.and_eq_true, decide_eq_true_eq] at hm
    have hx : x ≠ a := by omega
    simp only [bufLookup, if_neg hx]
    exact ih hm.2 (by omega)

/-- A read of the byte just stored. -/
@[simp] theorem bufLookup_bufStore_same (m : Buffer) (a : Nat) (b : Byte) : bufLookup (bufStore m a b) a = some b := by
  induction m with
  | nil => simp [bufStore, bufLookup]
  | cons e rest ih =>
    obtain ⟨x, y⟩ := e
    simp only [bufStore]
    split
    · simp [bufLookup]
    · split
      · simp [bufLookup]
      · rename_i h1 h2
        simp only [bufLookup, if_neg (Ne.symm h2)]
        exact ih

/-- A store leaves every other address alone. -/
theorem bufLookup_bufStore_other (m : Buffer) {a a' : Nat} (b : Byte) (h : a' ≠ a) :
    bufLookup (bufStore m a b) a' = bufLookup m a' := by
  induction m with
  | nil => simp [bufStore, bufLookup, Ne.symm h]
  | cons e rest ih =>
    obtain ⟨x, y⟩ := e
    simp only [bufStore]
    split
    · simp only [bufLookup, if_neg (Ne.symm h)]
    · split
      · rename_i h2
        subst h2
        simp only [bufLookup, if_neg (Ne.symm h)]
      · simp only [bufLookup, ih]

theorem bufRising_mono {cap lo lo' : Nat} {m : Buffer} (hm : bufRising cap lo m = true) (h : lo' ≤ lo) :
    bufRising cap lo' m = true := by
  cases m with
  | nil => rfl
  | cons e rest =>
    obtain ⟨x, y⟩ := e
    simp only [bufRising, Bool.and_eq_true, decide_eq_true_eq] at hm ⊢
    exact ⟨⟨by omega, hm.1.2⟩, hm.2⟩

theorem bufRising_bufStore {cap lo : Nat} {m : Buffer} {a : Nat} (b : Byte) (hm : bufRising cap lo m = true)
    (hlo : lo ≤ a) (ha : a < cap) : bufRising cap lo (bufStore m a b) = true := by
  induction m generalizing lo with
  | nil => simp [bufStore, bufRising, hlo, ha]
  | cons e rest ih =>
    obtain ⟨x, y⟩ := e
    simp only [bufRising, Bool.and_eq_true, decide_eq_true_eq] at hm
    simp only [bufStore]
    split
    · rename_i h1
      simp only [bufRising, Bool.and_eq_true, decide_eq_true_eq]
      exact ⟨⟨hlo, ha⟩, ⟨by omega, hm.1.2⟩, hm.2⟩
    · split
      · rename_i h2
        subst h2
        simp only [bufRising, Bool.and_eq_true, decide_eq_true_eq]
        exact ⟨⟨hlo, ha⟩, hm.2⟩
      · simp only [bufRising, Bool.and_eq_true, decide_eq_true_eq]
        exact ⟨hm.1, ih hm.2 (by omega)⟩

/-- A store below the capacity keeps the canonical form. -/
theorem wf_bufStore {cap : Nat} {m : Buffer} {a : Nat} (b : Byte) (hm : Memory.wf cap m = true) (ha : a < cap) :
    Memory.wf cap (bufStore m a b) = true :=
  bufRising_bufStore b hm (Nat.zero_le a) ha

/-! ## A byte string -/

/-- Outside the stored bytes nothing changes. -/
theorem bufLookup_bufStoreAll_out (m : Buffer) {a a' : Nat} {bs : Bytes} (h : a' < a ∨ a + bs.length ≤ a') :
    bufLookup (bufStoreAll m a bs) a' = bufLookup m a' := by
  induction bs generalizing m a with
  | nil => rfl
  | cons b rest ih =>
    simp only [List.length_cons] at h
    simp only [bufStoreAll]
    rw [ih _ (by omega), bufLookup_bufStore_other _ _ (by omega)]

/-- Byte `i` of the stored string stands at address `a + i`. -/
theorem bufLookup_bufStoreAll_in (m : Buffer) {a i : Nat} {bs : Bytes} (h : i < bs.length) :
    bufLookup (bufStoreAll m a bs) (a + i) = some (bs[i]'h) := by
  induction bs generalizing m a i with
  | nil => simp at h
  | cons b rest ih =>
    simp only [bufStoreAll]
    cases i with
    | zero => rw [bufLookup_bufStoreAll_out _ (Or.inl (by omega))]; simp
    | succ i =>
      have hi : i < rest.length := by simpa using h
      have := ih (bufStore m a b) (a := a + 1) hi
      rw [show a + (i + 1) = a + 1 + i by omega, this]
      simp

/-- Storing a byte string that ends inside the capacity keeps the canonical form. -/
theorem wf_bufStoreAll {cap : Nat} {m : Buffer} {a : Nat} {bs : Bytes} (hm : Memory.wf cap m = true)
    (h : a + bs.length ≤ cap) : Memory.wf cap (bufStoreAll m a bs) = true := by
  induction bs generalizing m a with
  | nil => exact hm
  | cons b rest ih =>
    simp only [List.length_cons] at h
    exact ih (wf_bufStore b hm (by omega)) (by omega)

@[simp] theorem wf_nil (cap : Nat) : Memory.wf cap [] = true := rfl

end Sys2Proof.Machine
end

