-- ==== Sys2Proof/Laws/State.lean ====
section
/-! SUPPORT. One lemma per field for each named update of the state, and the laws of a byte of a space, so that no later
proof unfolds an update. -/

namespace Sys2Proof.Machine

/-! ## Replacing a buffer -/

@[simp] theorem setBuf_drbg (s : State) (sp : Space) (m : Buffer) : (s.setBuf sp m).drbg = s.drbg := by cases sp <;> rfl
@[simp] theorem setBuf_life (s : State) (sp : Space) (m : Buffer) : (s.setBuf sp m).life = s.life := by cases sp <;> rfl
@[simp] theorem setBuf_err (s : State) (sp : Space) (m : Buffer) : (s.setBuf sp m).err = s.err := by cases sp <;> rfl
@[simp] theorem setBuf_busy (s : State) (sp : Space) (m : Buffer) : (s.setBuf sp m).busy = s.busy := by cases sp <;> rfl
@[simp] theorem setBuf_lenA (s : State) (sp : Space) (m : Buffer) : (s.setBuf sp m).lenA = s.lenA := by cases sp <;> rfl
@[simp] theorem setBuf_lenB (s : State) (sp : Space) (m : Buffer) : (s.setBuf sp m).lenB = s.lenB := by cases sp <;> rfl
@[simp] theorem setBuf_arg (s : State) (sp : Space) (m : Buffer) : (s.setBuf sp m).arg = s.arg := by cases sp <;> rfl
@[simp] theorem setBuf_res (s : State) (sp : Space) (m : Buffer) : (s.setBuf sp m).res = s.res := by cases sp <;> rfl
@[simp] theorem setBuf_epoch (s : State) (sp : Space) (m : Buffer) : (s.setBuf sp m).epoch = s.epoch := by cases sp <;> rfl
@[simp] theorem setBuf_script (s : State) (sp : Space) (m : Buffer) : (s.setBuf sp m).script = s.script := by cases sp <;> rfl
@[simp] theorem setBuf_readData (s : State) (sp : Space) (m : Buffer) : (s.setBuf sp m).readData = s.readData := by
  cases sp <;> rfl
@[simp] theorem setBuf_buf_same (s : State) (sp : Space) (m : Buffer) : (s.setBuf sp m).buf sp = m := by cases sp <;> rfl

theorem setBuf_buf_other (s : State) {sp sp' : Space} (m : Buffer) (h : sp' ≠ sp) : (s.setBuf sp m).buf sp' = s.buf sp' := by
  cases sp <;> cases sp' <;> first | rfl | exact absurd rfl h

/-! ## Storing a byte string in a space -/

@[simp] theorem memWrite_drbg (s : State) (sp : Space) (a : Nat) (b : Bytes) : (memWrite s sp a b).drbg = s.drbg := by
  simp [memWrite]
@[simp] theorem memWrite_life (s : State) (sp : Space) (a : Nat) (b : Bytes) : (memWrite s sp a b).life = s.life := by
  simp [memWrite]
@[simp] theorem memWrite_err (s : State) (sp : Space) (a : Nat) (b : Bytes) : (memWrite s sp a b).err = s.err := by
  simp [memWrite]
@[simp] theorem memWrite_busy (s : State) (sp : Space) (a : Nat) (b : Bytes) : (memWrite s sp a b).busy = s.busy := by
  simp [memWrite]
@[simp] theorem memWrite_lenA (s : State) (sp : Space) (a : Nat) (b : Bytes) : (memWrite s sp a b).lenA = s.lenA := by
  simp [memWrite]
@[simp] theorem memWrite_lenB (s : State) (sp : Space) (a : Nat) (b : Bytes) : (memWrite s sp a b).lenB = s.lenB := by
  simp [memWrite]
@[simp] theorem memWrite_arg (s : State) (sp : Space) (a : Nat) (b : Bytes) : (memWrite s sp a b).arg = s.arg := by
  simp [memWrite]
@[simp] theorem memWrite_res (s : State) (sp : Space) (a : Nat) (b : Bytes) : (memWrite s sp a b).res = s.res := by
  simp [memWrite]
@[simp] theorem memWrite_epoch (s : State) (sp : Space) (a : Nat) (b : Bytes) : (memWrite s sp a b).epoch = s.epoch := by
  simp [memWrite]
@[simp] theorem memWrite_script (s : State) (sp : Space) (a : Nat) (b : Bytes) : (memWrite s sp a b).script = s.script := by
  simp [memWrite]
@[simp] theorem memWrite_readData (s : State) (sp : Space) (a : Nat) (b : Bytes) :
    (memWrite s sp a b).readData = s.readData := by simp [memWrite]

theorem memWrite_out_bufA (s : State) (a : Nat) (b : Bytes) : (memWrite s .out a b).bufA = s.bufA := rfl
theorem memWrite_out_bufB (s : State) (a : Nat) (b : Bytes) : (memWrite s .out a b).bufB = s.bufB := rfl
theorem memWrite_out_bufOut (s : State) (a : Nat) (b : Bytes) : (memWrite s .out a b).bufOut = bufStoreAll s.bufOut a b := rfl

/-! ## One byte of a space -/

/-- The byte at an address depends on the space's buffer and on how many resets there have been, and on nothing else. -/
theorem readByte_congr {s t : State} {sp : Space} (hb : s.buf sp = t.buf sp) (he : s.epoch = t.epoch) (a : Nat) :
    readByte s sp a = readByte t sp a := by
  simp [readByte, hb, he]

/-- Byte `i` of a stored string reads back. -/
theorem readByte_memWrite_in (s : State) (sp : Space) {a i : Nat} {b : Bytes} (h : i < b.length) :
    readByte (memWrite s sp a b) sp (a + i) = b[i]'h := by
  simp [readByte, memWrite, bufLookup_bufStoreAll_in _ h]

/-- Outside the stored bytes every byte of the space reads as before. -/
theorem readByte_memWrite_out (s : State) (sp : Space) {a a' : Nat} {b : Bytes} (h : a' < a ∨ a + b.length ≤ a') :
    readByte (memWrite s sp a b) sp a' = readByte s sp a' := by
  simp [readByte, memWrite, bufLookup_bufStoreAll_out _ h]

/-- A store leaves the other spaces alone. -/
theorem readByte_memWrite_other (s : State) {sp sp' : Space} (a a' : Nat) (b : Bytes) (h : sp' ≠ sp) :
    readByte (memWrite s sp a b) sp' a' = readByte s sp' a' := by
  simp [readByte, memWrite, setBuf_buf_other _ _ h]

@[simp] theorem memRead_length (s : State) (sp : Space) (a n : Nat) : (memRead s sp a n).length = n := by simp [memRead]

/-- Two states whose bytes agree over a range give the same string there. -/
theorem memRead_congr {s t : State} {sp : Space} {a n : Nat} (h : ∀ i, i < n → readByte s sp (a + i) = readByte t sp (a + i)) :
    memRead s sp a n = memRead t sp a n := by
  simp only [memRead]
  exact List.map_congr_left fun i hi => h i (List.mem_range.mp hi)

/-- A store that ends inside the capacity keeps every buffer of the state in canonical form. -/
theorem wf_memWrite {cap : Nat} {s : State} {sp : Space} {a : Nat} {b : Bytes}
    (hs : ∀ x, Memory.wf cap (s.buf x) = true) (h : a + b.length ≤ cap) (x : Space) :
    Memory.wf cap ((memWrite s sp a b).buf x) = true := by
  by_cases hx : x = sp
  · subst hx
    simpa [memWrite] using wf_bufStoreAll (hs x) h
  · rw [memWrite, setBuf_buf_other _ _ hx]
    exact hs x

/-- The buffers right after reset are in canonical form. -/
theorem wf_reset (cap : Nat) (x : Space) : Memory.wf cap (State.reset.buf x) = true := by cases x <;> rfl

/-! ## Ending a command -/

/-- A command that ends with a status goes on, with that status posted and nothing else of its own. -/
theorem finish_eq_next {e : ErrCode} {s t : State} : finish e s = .next t ↔ t = { s with err := e, busy := false } := by
  constructor
  · intro h; cases h; rfl
  · rintro rfl; rfl

theorem raise_eq_next {e : ErrCode} {s t : State} : raise e s = .next t ↔ t = { s with err := e, busy := false } :=
  finish_eq_next

theorem illegalCommand_eq_next {s t : State} :
    illegalCommand s = .next t ↔ t = { s with err := .illegalCommand, busy := false } :=
  finish_eq_next

/-! ## The reset event -/

@[simp] theorem resetEvent_drbg (s : State) : (resetEvent s).drbg = ⟨⟨0, 0, 0, 0⟩, ⟨0, 0⟩, 0⟩ := rfl
@[simp] theorem resetEvent_life (s : State) : (resetEvent s).life = .uninstantiated := rfl
@[simp] theorem resetEvent_err (s : State) : (resetEvent s).err = .ok := rfl
@[simp] theorem resetEvent_busy (s : State) : (resetEvent s).busy = false := rfl
@[simp] theorem resetEvent_lenA (s : State) : (resetEvent s).lenA = 0 := rfl
@[simp] theorem resetEvent_lenB (s : State) : (resetEvent s).lenB = 0 := rfl
@[simp] theorem resetEvent_arg (s : State) : (resetEvent s).arg = ⟨0, 0, 0, 0, 0⟩ := rfl
@[simp] theorem resetEvent_res (s : State) : (resetEvent s).res = ⟨0, 0, 0, 0⟩ := rfl
@[simp] theorem resetEvent_bufA (s : State) : (resetEvent s).bufA = [] := rfl
@[simp] theorem resetEvent_bufB (s : State) : (resetEvent s).bufB = [] := rfl
@[simp] theorem resetEvent_bufOut (s : State) : (resetEvent s).bufOut = [] := rfl
@[simp] theorem resetEvent_epoch (s : State) : (resetEvent s).epoch = s.epoch + 1 := rfl
@[simp] theorem resetEvent_script (s : State) : (resetEvent s).script = s.script := rfl
@[simp] theorem resetEvent_readData (s : State) : (resetEvent s).readData = s.readData := rfl

/-! ## Host writes to the registers and the buffers -/

@[simp] theorem regStore_drbg (s : State) (r : Reg) (v : Word) : (regStore s r v).drbg = s.drbg := by cases r <;> rfl
@[simp] theorem regStore_life (s : State) (r : Reg) (v : Word) : (regStore s r v).life = s.life := by cases r <;> rfl
@[simp] theorem regStore_err (s : State) (r : Reg) (v : Word) : (regStore s r v).err = s.err := by cases r <;> rfl
@[simp] theorem regStore_busy (s : State) (r : Reg) (v : Word) : (regStore s r v).busy = s.busy := by cases r <;> rfl
@[simp] theorem regStore_res (s : State) (r : Reg) (v : Word) : (regStore s r v).res = s.res := by cases r <;> rfl
@[simp] theorem regStore_bufA (s : State) (r : Reg) (v : Word) : (regStore s r v).bufA = s.bufA := by cases r <;> rfl
@[simp] theorem regStore_bufB (s : State) (r : Reg) (v : Word) : (regStore s r v).bufB = s.bufB := by cases r <;> rfl
@[simp] theorem regStore_bufOut (s : State) (r : Reg) (v : Word) : (regStore s r v).bufOut = s.bufOut := by cases r <;> rfl
@[simp] theorem regStore_epoch (s : State) (r : Reg) (v : Word) : (regStore s r v).epoch = s.epoch := by cases r <;> rfl
@[simp] theorem regStore_script (s : State) (r : Reg) (v : Word) : (regStore s r v).script = s.script := by cases r <;> rfl
@[simp] theorem regStore_readData (s : State) (r : Reg) (v : Word) : (regStore s r v).readData = s.readData := by
  cases r <;> rfl

@[simp] theorem bufPut_drbg (s : State) (sp : Space) (a : Nat) (b : Byte) : (bufPut s sp a b).drbg = s.drbg := by
  cases sp <;> rfl
@[simp] theorem bufPut_life (s : State) (sp : Space) (a : Nat) (b : Byte) : (bufPut s sp a b).life = s.life := by
  cases sp <;> rfl
@[simp] theorem bufPut_err (s : State) (sp : Space) (a : Nat) (b : Byte) : (bufPut s sp a b).err = s.err := by
  cases sp <;> rfl
@[simp] theorem bufPut_busy (s : State) (sp : Space) (a : Nat) (b : Byte) : (bufPut s sp a b).busy = s.busy := by
  cases sp <;> rfl
@[simp] theorem bufPut_res (s : State) (sp : Space) (a : Nat) (b : Byte) : (bufPut s sp a b).res = s.res := by
  cases sp <;> rfl
@[simp] theorem bufPut_arg (s : State) (sp : Space) (a : Nat) (b : Byte) : (bufPut s sp a b).arg = s.arg := by
  cases sp <;> rfl
@[simp] theorem bufPut_epoch (s : State) (sp : Space) (a : Nat) (b : Byte) : (bufPut s sp a b).epoch = s.epoch := by
  cases sp <;> rfl
@[simp] theorem bufPut_script (s : State) (sp : Space) (a : Nat) (b : Byte) : (bufPut s sp a b).script = s.script := by
  cases sp <;> rfl
@[simp] theorem bufPut_bufOut (s : State) (sp : Space) (a : Nat) (b : Byte) : (bufPut s sp a b).bufOut = s.bufOut := by
  cases sp <;> rfl

end Sys2Proof.Machine
end

