-- ==== Sys2Proof/Laws/Commands.lean ====
section
/-! SUPPORT. What each command can answer, said once: if it goes on, in which state. Proofs about `exec` cite these and
unfold no meaning. -/

namespace Sys2Proof.Machine

/-- `exec` is the engine `command` at the reference configuration (spec/00_scope.md R1). -/
theorem exec_eq_command (i : Instr) (s : State) : exec i s = command cfgRef i s := by cases i <;> rfl

@[simp] theorem overCap_eq_true {c : Cfg} {n : Nat} : overCap c n = true ↔ c.bufCap < n := by simp [overCap]

@[simp] theorem overCap_eq_false {c : Cfg} {n : Nat} : overCap c n = false ↔ n ≤ c.bufCap := by simp [overCap]

/-- A 32-bit length never exceeds the capacity of the reference configuration (spec/20_memory.md R37). -/
theorem overCap_cfgRef_word (n : Word32) : overCap cfgRef n.toNat = false := by
  have h : n.toNat < 2 ^ 32 := n.isLt
  rw [overCap_eq_false]
  change n.toNat ≤ 2 ^ 32 - 1
  omega

/-- With a counter of 64 bits, `RC + 1` is the addition of words (spec/10_state.md R19). -/
theorem countUp_of_width_eq {c : Cfg} (h : c.rcW = 64) (rc : Word) : countUp c rc = rc + 1 := by
  apply BitVec.eq_of_toNat_eq
  simp [countUp, h, BitVec.toNat_add]

@[simp] theorem countUp_cfgRef (rc : Word) : countUp cfgRef rc = rc + 1 := countUp_of_width_eq rfl rc

/-- A well-formed configuration's counter stays below `2^RC_W`. -/
theorem countUp_lt {c : Cfg} (h : c.rcW ≤ 64) (rc : Word) : (countUp c rc).toNat < 2 ^ c.rcW := by
  have h1 : (rc.toNat + 1) % 2 ^ c.rcW < 2 ^ c.rcW := Nat.mod_lt _ (Nat.two_pow_pos _)
  have h2 : 2 ^ c.rcW ≤ 2 ^ 64 := Nat.pow_le_pow_right (by decide) h
  rw [countUp, BitVec.toNat_ofNat, Nat.mod_eq_of_lt (by omega)]
  exact h1

@[simp] theorem update_rc (c : Cfg) (d : Drbg) (pd : Option (Quad Word)) : (update c d pd).rc = countUp c d.rc := rfl

theorem mixCmd_eq_next {c : Cfg} {s t : State} :
    mixCmd c s = .next t ↔
      t = { s with res := quadSet s.res 0 (mix c s.arg.a0 (mixKey s)), err := .ok, busy := false } :=
  finish_eq_next

theorem instantiateCmd_eq_next {c : Cfg} {s t : State} :
    instantiateCmd c s = .next t ↔
      t = { s with drbg := instantiateDrbg c s, life := .ready, err := .ok, busy := false } :=
  finish_eq_next

theorem zeroizeCmd_eq_next {s t : State} :
    zeroizeCmd s = .next t ↔
      t = { s with drbg := ⟨quadOf 0#64, ⟨0#64, 0#64⟩, 0#64⟩, life := .zeroized, err := .ok, busy := false } :=
  finish_eq_next

theorem nextU64Cmd_eq_next {c : Cfg} {s t : State} :
    nextU64Cmd c s = .next t ↔
      t = { s with
        drbg := update c { s.drbg with v := vInc s.drbg.v } none
        res := quadSet s.res 0 (block c (vInc s.drbg.v) s.drbg.k)
        err := .ok, busy := false } :=
  finish_eq_next

/-- RESEED either finds a length over the capacity, or reseeds. -/
theorem reseedCmd_eq_next {c : Cfg} {s t : State} (h : reseedCmd c s = .next t) :
    ((c.bufCap < s.lenA.toNat ∨ c.bufCap < s.lenB.toNat) ∧ t = { s with err := .invalidArgument, busy := false }) ∨
    ((s.lenA.toNat ≤ c.bufCap ∧ s.lenB.toNat ≤ c.bufCap) ∧
      t = { s with drbg := reseedDrbg c s, err := .ok, busy := false }) := by
  unfold reseedCmd at h
  split at h
  · rename_i hc
    exact .inl ⟨by simpa using hc, raise_eq_next.mp h⟩
  · rename_i hc
    exact .inr ⟨by simpa using hc, finish_eq_next.mp h⟩

/-- GENERATE fails its null-output check, or finds a length over the capacity, or generates. -/
theorem generateCmd_eq_next {c : Cfg} {ov : Bool} {len : Nat} {s t : State} (h : generateCmd c ov len s = .next t) :
    (((len ≠ 0 ∧ ov = false) ∨ c.bufCap < len ∨ c.bufCap < s.lenB.toNat) ∧
      t = { s with err := .invalidArgument, busy := false }) ∨
    ((¬(len ≠ 0 ∧ ov = false) ∧ len ≤ c.bufCap ∧ s.lenB.toNat ≤ c.bufCap) ∧
      t = { memWrite { s with drbg := postUpdate c (preUpdate c s) len } .out 0
              (stream c (preUpdate c s).k (preUpdate c s).v len) with err := .ok, busy := false }) := by
  unfold generateCmd at h
  split at h
  · rename_i h1
    exact .inl ⟨.inl (by simpa using h1), raise_eq_next.mp h⟩
  · rename_i h1
    split at h
    · rename_i h2
      exact .inl ⟨.inr (by simpa using h2), raise_eq_next.mp h⟩
    · rename_i h2
      simp only [Bool.or_eq_true, overCap_eq_true, not_or, Nat.not_lt] at h2
      exact .inr ⟨⟨by simpa using h1, h2⟩, finish_eq_next.mp h⟩

/-- EXTRACT fails one of its checks, or extracts. -/
theorem extractCmd_eq_next {c : Cfg} {dv ov : Bool} {s t : State} (h : extractCmd c dv ov s = .next t) :
    ((dv = false ∨ s.lenA = 0#32 ∨ ov = false ∨ c.bufCap < s.lenA.toNat) ∧
      t = { s with err := .invalidArgument, busy := false }) ∨
    ((dv = true ∧ s.lenA ≠ 0#32 ∧ ov = true ∧ s.lenA.toNat ≤ c.bufCap) ∧
      t = { memWrite s .out 0 (extractSeed c (inputA s)).toList with err := .ok, busy := false }) := by
  unfold extractCmd at h
  split at h
  · rename_i h1
    have h1' : dv = false ∨ s.lenA = 0#32 := by simpa using h1
    exact .inl ⟨by tauto, raise_eq_next.mp h⟩
  · rename_i h1
    have h1' : dv = true ∧ ¬ s.lenA = 0#32 := by simpa using h1
    split at h
    · rename_i h2
      exact .inl ⟨.inr (.inr (.inl (by simpa using h2))), raise_eq_next.mp h⟩
    · rename_i h2
      split at h
      · rename_i h3
        exact .inl ⟨.inr (.inr (.inr (by simpa using h3))), raise_eq_next.mp h⟩
      · rename_i h3
        exact .inr ⟨⟨h1'.1, h1'.2, by simpa using h2, by simpa using h3⟩, finish_eq_next.mp h⟩

/-- EXTRACT_U64 fails one of its checks, or extracts. -/
theorem extractU64Cmd_eq_next {c : Cfg} {dv : Bool} {s t : State} (h : extractU64Cmd c dv s = .next t) :
    ((dv = false ∨ s.lenA = 0#32 ∨ c.bufCap < s.lenA.toNat) ∧
      t = { s with err := .invalidArgument, busy := false }) ∨
    ((dv = true ∧ s.lenA ≠ 0#32 ∧ s.lenA.toNat ≤ c.bufCap) ∧
      t = { s with
        res := ⟨seedWord (extractSeed c (inputA s)) 0, seedWord (extractSeed c (inputA s)) 1,
          seedWord (extractSeed c (inputA s)) 2, seedWord (extractSeed c (inputA s)) 3⟩
        err := .ok, busy := false }) := by
  unfold extractU64Cmd at h
  split at h
  · rename_i h1
    have h1' : dv = false ∨ s.lenA = 0#32 := by simpa using h1
    exact .inl ⟨by tauto, raise_eq_next.mp h⟩
  · rename_i h1
    have h1' : dv = true ∧ ¬ s.lenA = 0#32 := by simpa using h1
    split at h
    · rename_i h3
      exact .inl ⟨.inr (.inr (by simpa using h3)), raise_eq_next.mp h⟩
    · rename_i h3
      exact .inr ⟨⟨h1'.1, h1'.2, by simpa using h3⟩, finish_eq_next.mp h⟩

end Sys2Proof.Machine
end

