-- ==== Sys2Proof/Laws/Host.lean ====
section
/-! SUPPORT. What one host action, and so one step, can do, said once. -/

namespace Sys2Proof.Machine

/-- A register access that goes on reached a register of the map, in one aligned 8-byte access. -/
theorem withReg_eq_next {off width : Nat} {k : Reg → Out} {t : State} (h : withReg off width k = .next t) :
    ∃ r, regAt off = some r ∧ width = 8 ∧ off % 8 = 0 ∧ off < 256 ∧ k r = .next t := by
  unfold withReg at h
  split at h
  · cases h
  · rename_i h1
    split at h
    · cases h
    · rename_i h2
      split at h
      · rename_i r hr
        simp only [not_or, Decidable.not_not] at h2
        exact ⟨r, hr, h2.1, h2.2, by omega, h⟩
      · cases h

/-- The offset of a register of the map leads back to that register. -/
@[simp] theorem regAt_offset (r : Reg) : regAt r.offset = some r := by
  cases r with
  | arg i => fin_cases i <;> rfl
  | res i => fin_cases i <;> rfl
  | _ => rfl

/-- An aligned 8-byte access at a register's offset reaches that register. -/
@[simp] theorem withReg_offset (r : Reg) (k : Reg → Out) : withReg r.offset 8 k = k r := by
  cases r with
  | arg i => fin_cases i <;> rfl
  | res i => fin_cases i <;> rfl
  | _ => rfl

/-- If a host action goes on, it is one of these six. -/
theorem serve_eq_next {c : Cfg} {run : Word → State → Out} {a : HostAction} {s t : State}
    (h : serve c run a s = .next t) :
    (∃ off v, a = .regWrite off 8 v ∧ regAt off = some .cmd ∧ s.busy = false ∧ run v { s with busy := true } = .next t) ∨
    (∃ off v r, a = .regWrite off 8 v ∧ regAt off = some r ∧ r ≠ .cmd ∧ s.busy = false ∧ t = regStore s r v) ∨
    (∃ off r, a = .regRead off 8 ∧ regAt off = some r ∧ t = { s with readData := regValue s r }) ∨
    (∃ sp addr b, a = .bufWrite sp addr b ∧ addr < c.bufCap ∧ s.busy = false ∧ t = bufPut s sp addr b) ∨
    (∃ sp addr, a = .bufRead sp addr ∧ addr < c.bufCap ∧ s.busy = false ∧
      t = { s with readData := (bufValue s sp addr).setWidth 64 }) ∨
    (a = .reset ∧ t = resetEvent s) := by
  unfold serve at h
  split at h
  · cases h
  · rename_i hb
    cases a with
    | regWrite off width v =>
      have hbusy : s.busy = false := by simpa [allowedWhileBusy] using hb
      obtain ⟨r, hr, hw, -, -, hk⟩ := withReg_eq_next h
      subst hw
      split at hk
      · rename_i hc
        subst hc
        exact .inl ⟨off, v, rfl, hr, hbusy, hk⟩
      · rename_i hc
        cases hk
        exact .inr (.inl ⟨off, v, r, rfl, hr, hc, hbusy, rfl⟩)
    | regRead off width =>
      obtain ⟨r, hr, hw, -, -, hk⟩ := withReg_eq_next h
      subst hw
      cases hk
      exact .inr (.inr (.inl ⟨off, r, rfl, hr, rfl⟩))
    | bufWrite sp addr b =>
      have hbusy : s.busy = false := by simpa [allowedWhileBusy] using hb
      simp only at h
      split at h
      · cases h
      · cases h
        exact .inr (.inr (.inr (.inl ⟨sp, addr, b, rfl, by omega, hbusy, rfl⟩)))
    | bufRead sp addr =>
      have hbusy : s.busy = false := by simpa [allowedWhileBusy] using hb
      simp only at h
      split at h
      · cases h
      · cases h
        exact .inr (.inr (.inr (.inr (.inl ⟨sp, addr, rfl, by omega, hbusy, rfl⟩))))
    | reset =>
      cases h
      exact .inr (.inr (.inr (.inr (.inr ⟨rfl, rfl⟩))))

/-- A step that goes on is idle, or serves the host's next action. -/
theorem step_eq_next {s t : State} (h : step s = .next t) :
    (s.script = [] ∧ t = s) ∨
    (∃ a rest, s.script = a :: rest ∧ serve cfgRef runCommand a { s with script := rest } = .next t) := by
  unfold step at h
  split at h
  · rename_i hs
    cases h
    exact .inl ⟨hs, rfl⟩
  · rename_i a rest hs
    exact .inr ⟨a, rest, hs, h⟩

/-- A word written to `CMD` runs as the command it decodes to, or posts the illegal-command status. -/
theorem runCommand_cases (w : Word) (s : State) :
    (∃ i, decodeWord w = .command i ∧ runCommand w s = exec i s) ∨
    (∃ e, decodeWord w = .illegal e ∧ runCommand w s = illegalCommand s) := by
  unfold runCommand
  cases h : decodeWord w with
  | command i => exact .inl ⟨i, rfl, rfl⟩
  | illegal e => exact .inr ⟨e, rfl, rfl⟩

end Sys2Proof.Machine
end

