-- ==== Sys2Proof/Laws/PerInstr.lean ====
section
/-! SUPPORT. Statements about every command as syntax, one lemma per constructor (LAWS.json, "per_instruction"). -/

namespace Sys2Proof.Laws.EncodingMatchesRow

/-- The word of a well-formed command matches the command's own row of the opcode table (spec/30_encoding.md R52, R53). -/
def Statement (i : Instr) : Prop := i.wellFormed = true → i.row.hits (encode i) = true

/-- Bits 63:32 of the word of a 32-bit count are 0, so they clear no bit of a mask's upper half. -/
theorem count_and_mask {n : Nat} (h : n < 2 ^ 32) : BitVec.ofNat 64 n &&& 0xFFFCFFFF00000000#64 = 0#64 := by
  apply BitVec.eq_of_toNat_eq
  rw [BitVec.toNat_and, BitVec.toNat_ofNat, Nat.mod_eq_of_lt (by omega)]
  apply Nat.eq_of_testBit_eq
  intro j
  rw [Nat.testBit_and]
  by_cases hj : j < 32
  · have hm : ∀ j < 32, Nat.testBit (BitVec.toNat 0xFFFCFFFF00000000#64) j = false := by decide
    rw [hm j hj]
    simp
  · have hn : n.testBit j = false :=
      Nat.testBit_lt_two_pow (lt_of_lt_of_le h (Nat.pow_le_pow_right (by decide) (by omega)))
    simp [hn]

theorem instantiate : Statement .instantiate := fun _ => by decide
theorem reseed : Statement .reseed := fun _ => by decide

theorem generate (ov pr : Bool) (len : Nat) : Statement (.generate ov pr len) := by
  intro h
  have hl : len < 2 ^ 32 := by simpa [Instr.wellFormed] using h
  have hc := count_and_mask hl
  have hb : ∀ ov pr : Bool,
      (rowGenerate.code ||| bitField pr 48 ||| bitField ov 49) &&& rowGenerate.mask = rowGenerate.code := by decide
  have : encode (.generate ov pr len) &&& rowGenerate.mask = rowGenerate.code := by
    change ((rowGenerate.code ||| bitField pr 48 ||| bitField ov 49) ||| BitVec.ofNat 64 len) &&& rowGenerate.mask = _
    rw [BitVec.and_or_distrib_right, hb ov pr]
    change rowGenerate.code ||| (BitVec.ofNat 64 len &&& 0xFFFCFFFF00000000#64) = _
    rw [hc, BitVec.or_zero]
  simpa [OpcodeRow.hits, Instr.row] using this

theorem nextU64 : Statement .nextU64 := fun _ => by decide
theorem zeroize : Statement .zeroize := fun _ => by decide
theorem mix : Statement .mix := fun _ => by decide

theorem extract (dv ov : Bool) : Statement (.extract dv ov) := fun _ => by
  revert dv ov
  decide

theorem extractU64 (dv : Bool) : Statement (.extractU64 dv) := fun _ => by
  revert dv
  decide

end Sys2Proof.Laws.EncodingMatchesRow
end

