-- ==== Sys2Proof/Tests/Slice0.lean ====
section
/-! SUPPORT. The model's own tests. Every expected value comes from spec/ (the file is named at each group), none from the
model. The witnesses at the end show, for each statement of Obligations.lean that has hypotheses, data that meet them. -/

namespace Sys2Proof.Tests

open Sys2Proof.Machine

/-! ## Helpers -/

/-- The state after reset with a host script. -/
def fresh (acts : List HostAction) : State := { State.reset with script := acts }

/-- A state with the DRBG's registers as a trace of the spec gives them. -/
def seeded (k0 k1 k2 k3 v0 v1 rc : Word) (acts : List HostAction) : State :=
  { State.reset with drbg := ⟨⟨k0, k1, k2, k3⟩, ⟨v0, v1⟩, rc⟩, life := .ready, script := acts }

/-- The state after `n` steps, if they all go on. -/
def after (n : Nat) (s : State) : Option State :=
  match Host.Core.run Sys2Proof.core n s with
  | .next t => some t
  | .fault _ => none
  | .refused _ => none

/-! ## Well-formedness: each check refuses an ill-formed term (spec/00_scope.md R7, spec/30_encoding.md R50) -/

theorem test_wf_len_bound : (Instr.generate true false (2 ^ 32)).wellFormed = false := by decide
theorem test_wf_len_largest : (Instr.generate true true (2 ^ 32 - 1)).wellFormed = true := by decide
theorem test_wf_even_eps : ({ cfgRef with cEps := 2 }).wellFormed = false := by decide
theorem test_wf_even_mul : ({ cfgRef with mul3 := #v[3, 5, 6] }).wellFormed = false := by decide
theorem test_wf_rot : ({ cfgRef with rot3 := #v[0, 64, 1] }).wellFormed = false := by decide
theorem test_wf_shift_right : ({ cfgRef with shR := 0 }).wellFormed = false := by decide
theorem test_wf_shift_left : ({ cfgRef with shL := 64 }).wellFormed = false := by decide
theorem test_wf_rot_nonce : ({ cfgRef with rN := 64 }).wellFormed = false := by decide
theorem test_wf_rot_personalization : ({ cfgRef with rP := 64 }).wellFormed = false := by decide
theorem test_wf_rot_diffuse : ({ cfgRef with rDif := 64 }).wellFormed = false := by decide
theorem test_wf_rot_probe : ({ cfgRef with rProbe := 64 }).wellFormed = false := by decide
theorem test_wf_rot_round1 : ({ cfgRef with rX1 := 64 }).wellFormed = false := by decide
theorem test_wf_rot_round2 : ({ cfgRef with rX2 := 64 }).wellFormed = false := by decide
theorem test_wf_pd_distinct : ({ cfgRef with cPd := ⟨1, 2, 3, 1⟩ }).wellFormed = false := by decide
theorem test_wf_counter_none : ({ cfgRef with rcW := 0 }).wellFormed = false := by decide
theorem test_wf_counter_wide : ({ cfgRef with rcW := 65 }).wellFormed = false := by decide
theorem test_wf_perm : ({ cfgRef with perm := cfgRef.perm.set 5 ⟨0, 1, 2, 2⟩ }).wellFormed = false := by decide

/-! ## Decoding: words written out from the fields of spec/30_encoding.md R50 (OPC, DV, OV, PR, LEN) and R53 -/

theorem test_decode_instantiate : decodeWord (BitVec.ofNat 64 (0x01 * 2 ^ 56)) = .command .instantiate := by decide
theorem test_decode_reseed : decodeWord (BitVec.ofNat 64 (0x02 * 2 ^ 56)) = .command .reseed := by decide
theorem test_decode_generate_ov :
    decodeWord (BitVec.ofNat 64 (0x03 * 2 ^ 56 + 2 ^ 49 + 16)) = .command (.generate true false 16) := by decide
theorem test_decode_generate_pr :
    decodeWord (BitVec.ofNat 64 (0x03 * 2 ^ 56 + 2 ^ 48 + (2 ^ 32 - 1))) = .command (.generate false true 4294967295) := by
  decide
theorem test_decode_next_u64 : decodeWord (BitVec.ofNat 64 (0x04 * 2 ^ 56)) = .command .nextU64 := by decide
theorem test_decode_zeroize : decodeWord (BitVec.ofNat 64 (0x05 * 2 ^ 56)) = .command .zeroize := by decide
theorem test_decode_mix : decodeWord (BitVec.ofNat 64 (0x08 * 2 ^ 56)) = .command .mix := by decide
theorem test_decode_extract_dv : decodeWord (BitVec.ofNat 64 (0x10 * 2 ^ 56 + 2 ^ 50)) = .command (.extract true false) := by
  decide
theorem test_decode_extract_ov : decodeWord (BitVec.ofNat 64 (0x10 * 2 ^ 56 + 2 ^ 49)) = .command (.extract false true) := by
  decide
theorem test_decode_extract_u64 : decodeWord (BitVec.ofNat 64 (0x11 * 2 ^ 56 + 2 ^ 50)) = .command (.extractU64 true) := by
  decide

/-- The illegal words of spec/95_test_vectors.md section 6. -/
theorem test_decode_illegal :
    ([0x0000000000000000, 0x0100000000000001, 0x0102000000000000, 0x0304000000000000, 0x0308000000000000,
      0x0302000100000000, 0x0402000000000000, 0x0600000000000000, 0x0700000000000000, 0x0900000000000000, 0x1001000000000000,
      0x1006000000000001, 0x1102000000000000, 0x1200000000000000, 0xFF00000000000000, 0xFFFFFFFFFFFFFFFF,
      0x0000000000000003] : List Nat).filterMap (decodeTableWord 64) = [] := by decide +kernel

theorem test_table_word : decodeTableWord 64 0x1006000000000000 = some (.extract true true) := by decide

/-- The fetch hook: the next step runs the word it places. ZEROIZE leaves ZEROIZED (R94). -/
theorem test_fetch_word : (after 1 (State.reset.withFetchWord 64 0x0500000000000000)).map (·.life) = some .zeroized := by decide

/-! ## MIX (spec/95_test_vectors.md section 2) -/

theorem test_mix_form :
    (after 7 (fresh (mixForm 0x123456789ABCDEF0 1 2 3 4))).map (fun s => (s.readData, s.err, s.drbg.rc, s.life)) =
      some (0xF7A470B32AF3D70E, .ok, 0, .uninstantiated) := by decide +kernel

/-- The case `e` = 0: no final rotation. -/
theorem test_mix_no_rotation : mix cfgRef 0x183 ⟨1, 2, 3, 4⟩ = 0x6781FC2BC9AE661B := by decide +kernel

/-! ## INSTANTIATE (spec/95_test_vectors.md section 3.1) -/

theorem test_instantiate_form :
    (after 4 (fresh (instantiateForm 1 2 3))).map (fun s => (s.drbg, s.life)) =
      some (⟨⟨0xA14CB8677BE412F4, 0x40E7CA80323EE75D, 0x4235CAB8EA13B026, 0x0F0F26659D10B903⟩,
        ⟨0x8140965BE7F05DB5, 0x551255173F6020CC⟩, 1⟩, .ready) := by decide +kernel

theorem test_instantiate_operand_order :
    (after 4 (fresh (instantiateForm 0xDEADBEEFCAFEF00D 0x0123456789ABCDEF 0x5555555555555555))).map (·.drbg.k) =
      some ⟨0xD3BB26E87D63B1F3, 0x2A3099779BA8CCB5, 0xCD4C9C07436C1B29, 0xD653637C2EBBE6F7⟩ := by decide +kernel

/-! ## RESEED (program P1, steps 8 and 9) -/

theorem test_reseed_entropy :
    (after 14 (seeded 0x62DFF58E20771B8E 0xA34EE89BAEE3F5A8 0x21D66CC071B692C2 0x56B0AE9727A27D00
      0xA8D5DADD6332B1A8 0x6DB762344DD58D5A 7 (reseedForm [1, 2, 3, 4, 5, 6, 7, 8, 9, 10, 11] []))).map (·.drbg) =
      some ⟨⟨0xE65207E3BD4858A4, 0x2186E7C6B643189F, 0xB2E4DCEF1E0A777A, 0xF89CA84F544384A5⟩,
        ⟨0x16C09918BA41C6CA, 0x8BCBC8D61C9C5F95⟩, 1⟩ := by decide +kernel

theorem test_reseed_nothing :
    (after 1 (seeded 0xE65207E3BD4858A4 0x2186E7C6B643189F 0xB2E4DCEF1E0A777A 0xF89CA84F544384A5
      0x16C09918BA41C6CA 0x8BCBC8D61C9C5F95 1 [issue .reseed])).map (·.drbg) =
      some ⟨⟨0xDD0B29A456E9C5B8, 0x930BEDEF66370584, 0xFED8B18922D8AC34, 0xDB4F44858EDC5D4F⟩,
        ⟨0x83C7A1DAB83D3460, 0x1082D0A82FDD82C7⟩, 1⟩ := by decide +kernel

/-! ## GENERATE (program P1, step 4; program P4, step 4) -/

theorem test_generate_additional :
    (after 5 (seeded 0x68BB4D0E20299B94 0x211D87D57A22D2C7 0xFF470FAC09CA5EEB 0xD3BB5E00CBB70948
      0xAD11E8128FB2B20E 0x5C9A7A952DD24A5B 3 (generateForm 11 [0x61, 0x62, 0x63]))).map
        (fun s => (memRead s .out 0 11, s.drbg)) =
      some ([0xBA, 0x43, 0xF2, 0x38, 0xA4, 0xB1, 0xAE, 0xE7, 0xDB, 0xF3, 0x6C],
        ⟨⟨0xC9C55AE2898D5953, 0x71F13CAD9915BE1B, 0xCCD182EEE78650E1, 0x48B9BAE86ADD0FA7⟩,
          ⟨0xD5CE2B033A6CDACD, 0x044AD8B0CCDA4879⟩, 5⟩) := by decide +kernel

theorem test_generate_null_output :
    (after 1 (fresh [issue (.generate false false 4)])).map (fun s => (s.err, s.drbg.rc, s.bufOut)) =
      some (.invalidArgument, 0, []) := by decide

/-! ## NEXT_U64 (program P1, steps 3 and 11) -/

theorem test_next_u64 :
    (after 1 (seeded 0xE3597E53E2A7928C 0x68F1B8D9CA9224B1 0x0DF357D2B5DF77C1 0x935C97CF8FBC53D6
      0x4AD1622B818FD3BC 0x11D6D897F28AE334 2 [issue .nextU64])).map (fun s => (s.res.q0, s.drbg)) =
      some (0x690AD267749D9B84,
        ⟨⟨0x68BB4D0E20299B94, 0x211D87D57A22D2C7, 0xFF470FAC09CA5EEB, 0xD3BB5E00CBB70948⟩,
          ⟨0xAD11E8128FB2B20E, 0x5C9A7A952DD24A5B⟩, 3⟩) := by decide +kernel

theorem test_next_u64_zeroized :
    (after 2 (fresh [issue .zeroize, issue .nextU64])).map (fun s => (s.res.q0, s.life)) =
      some (0xB586CBC959D2B50B, .zeroized) := by decide +kernel

/-! ## ZEROIZE (program P1, step 10) -/

theorem test_zeroize_status :
    (after 2 (seeded 1 2 3 4 5 6 7 [issue .zeroize, rd .status])).map (·.readData) = some 0x0000000000000002 := by
  decide

theorem test_zeroize_keeps_arg :
    (after 2 (seeded 1 2 3 4 5 6 7 [wr (.arg 3) 9, issue .zeroize])).map (fun s => (s.drbg, s.arg.a3)) =
      some (⟨⟨0, 0, 0, 0⟩, ⟨0, 0⟩, 0⟩, 9) := by decide

/-! ## EXTRACT and EXTRACT_U64 (spec/95_test_vectors.md sections 5.1 and 5.2) -/

theorem test_extract_one :
    (after 3 (fresh (loadA [0x31] ++ [issue (.extract true true)]))).map (fun s => memRead s .out 0 32) =
      some [0xB4, 0xC7, 0xF6, 0x41, 0x5B, 0x5A, 0xD5, 0xBD, 0x4E, 0x51, 0x1B, 0x36, 0x85, 0x62, 0xC0, 0xE5,
        0xAE, 0x27, 0xE9, 0xFA, 0x6C, 0x30, 0x92, 0xE1, 0xB7, 0xE0, 0xBB, 0x00, 0x6E, 0x12, 0xCD, 0x94] := by
  decide +kernel

theorem test_extract_null_data :
    (after 3 (fresh (loadA [0x31] ++ [issue (.extract false true)]))).map (fun s => (s.err, s.bufOut)) =
      some (.invalidArgument, []) := by decide

theorem test_extract_u64 :
    (after 10 (fresh (loadA [0x61, 0x2C, 0x31, 0x0A, 0x2D, 0x32, 0x2E, 0x35] ++ [issue (.extractU64 true)]))).map (·.res) =
      some ⟨0x9C7766C1CBEF65E5, 0x3681705F923A6298, 0x4FD49D269588E748, 0xC5FD89C1F0868952⟩ := by decide +kernel

theorem test_extract_u64_with_ov :
    (after 3 (fresh (loadA [0x31] ++ [wr .cmd 0x1106000000000000]))).map (fun s => (s.err, s.res)) =
      some (.illegalCommand, ⟨0, 0, 0, 0⟩) := by decide

/-! ## Host forms (spec/43_seed_engine.md R113, R114) -/

theorem test_framing :
    frameFiles [([0x61, 0x2E, 0x63, 0x73, 0x76], some [0x31, 0x2C, 0x32]), ([0x62], some [0x78])] =
      some [0x46, 0x49, 0x4C, 0x45, 0x3A, 0x61, 0x2E, 0x63, 0x73, 0x76, 0x00, 0x31, 0x2C, 0x32, 0x1E, 0x46, 0x49, 0x4C,
        0x45, 0x3A, 0x62, 0x00, 0x78, 0x1E] := by decide

theorem test_empty_file : extractFile cfgRef (some []) = .error .ioFailure := by decide
theorem test_missing_file : extractFiles cfgRef [([0x61], some [0x31]), ([0x62], none)] = .error .ioFailure := by decide

/-! ## The functions inside (spec/44_hash.md R123, spec/97_test_vectors_seed.md T5, spec/96_test_vectors_functions.md T2) -/

theorem test_sha256_abc :
    (sha256 [0x61, 0x62, 0x63]).toList =
      [0xBA, 0x78, 0x16, 0xBF, 0x8F, 0x01, 0xCF, 0xEA, 0x41, 0x41, 0x40, 0xDE, 0x5D, 0xAE, 0x22, 0x23,
        0xB0, 0x03, 0x61, 0xA3, 0x96, 0x17, 0x7A, 0x9C, 0xB4, 0x10, 0xFF, 0x61, 0xF2, 0x00, 0x15, 0xAD] := by decide +kernel

/-- "a,1" newline "-2.5". -/
theorem test_scan :
    (scanTokens [0x61, 0x2C, 0x31, 0x0A, 0x2D, 0x32, 0x2E, 0x35]).map (fun t => (t.offset, t.line, parseDecRef t.text)) =
      [(2, 1, 0x3FF0000000000000), (4, 2, 0xC004000000000000)] := by decide +kernel

/-- "4.9e-324", the least subnormal. -/
theorem test_parse_subnormal : parseDecRef [0x34, 0x2E, 0x39, 0x65, 0x2D, 0x33, 0x32, 0x34] = 0x0000000000000001 := by
  decide +kernel

/-- "9007199254740993", a tie that rounds to the even neighbour. -/
theorem test_parse_tie :
    parseDecRef [0x39, 0x30, 0x30, 0x37, 0x31, 0x39, 0x39, 0x32, 0x35, 0x34, 0x37, 0x34, 0x30, 0x39, 0x39, 0x33] =
      0x4340000000000000 := by decide +kernel

/-- A counter of 8 bits wraps at 256 (spec/10_state.md R19 with another `RC_W`). -/
theorem test_counter_width : countUp { cfgRef with rcW := 8 } 255 = 0 := by decide

/-- Shell 5: four rounds under the sixth permutation. -/
theorem test_block_shell5 : block cfgRef ⟨0x0B, 0⟩ ⟨0, 0, 0, 0⟩ = 0xEAC658CCA66CEFAF := by decide +kernel

/-! ## Witnesses: data that meet the hypotheses of each statement that has some, at the boundaries of its clauses -/

/-- A state with 32-bit lengths, whose first bytes of A and B are those of `b`. -/
def loaded (la lb : Word32) (b : Bytes) : State :=
  { State.reset with lenA := la, lenB := lb, bufA := bufStoreAll [] 0 b, bufB := bufStoreAll [] 0 b }

theorem witness_DecodeEncodeRoundTrip :
    Instr.instantiate.wellFormed = true ∧ (Instr.generate false true (2 ^ 32 - 1)).wellFormed = true ∧
      (Instr.generate true false 0).wellFormed = true := by decide

theorem witness_EncodeDecodeRoundTrip : decodeWord 0x0302000000000010 = .command (.generate true false 16) := by decide

theorem witness_DecoderFollowsOpcodeTable :
    (∃ r ∈ opcodeRows, (0x03030000FFFFFFFF : Word) &&& r.mask = r.code) ∧
      (∀ r ∈ opcodeRows, (0x0304000000000000 : Word) &&& r.mask ≠ r.code) := by decide

theorem witness_IllegalWordPostsErrorOnly :
    (fresh [wr .cmd 0xFFFFFFFFFFFFFFFF]).busy = false ∧
      (fresh [wr .cmd 0xFFFFFFFFFFFFFFFF]).script = wr .cmd 0xFFFFFFFFFFFFFFFF :: [] ∧
      (∀ r ∈ opcodeRows, (0xFFFFFFFFFFFFFFFF : Word) &&& r.mask ≠ r.code) := by decide

theorem witness_StepRunsDecodedCommand :
    (fresh [wr .cmd 0x0500000000000000]).busy = false ∧
      (fresh [wr .cmd 0x0500000000000000]).script = wr .cmd 0x0500000000000000 :: [] ∧
      decodeWord 0x0500000000000000 = .command .zeroize := by decide

theorem witness_StepIdlesWithoutHostAction : State.reset.script = [] := by decide

theorem witness_HostRegisterReads : (fresh [rd (.res 3)]).busy = false ∧ (fresh [rd (.res 3)]).script = rd (.res 3) :: [] := by
  decide

theorem witness_HostRegisterWrites :
    (fresh [wr .lenA 5]).busy = false ∧ (Reg.lenA ≠ .cmd) ∧ (fresh [wr .lenA 5]).script = wr .lenA 5 :: [] := by decide

/-- First clause at offset 256, second at 255 and at 0x6C, third at 0x70 and 0xF8. -/
theorem witness_RegisterAccessesThatStop :
    (fresh []).busy = false ∧ (fresh [.regRead 256 8]).script = .regRead 256 8 :: [] ∧ 256 ≤ 256 ∧
      (fresh [.regWrite 255 8 0]).script = .regWrite 255 8 0 :: [] ∧ (255 < 256 ∧ (8 ≠ 8 ∨ 255 % 8 ≠ 0)) ∧
      (0x68 < 256 ∧ (4 ≠ 8 ∨ 0x68 % 8 ≠ 0)) ∧
      (0x70 ≤ 0x70 ∧ 0x70 < 256 ∧ 8 = 8 ∧ 0x70 % 8 = 0) ∧ (0x70 ≤ 0xF8 ∧ 0xF8 < 256 ∧ 8 = 8 ∧ 0xF8 % 8 = 0) ∧
      (after 1 (fresh [.regRead 256 8])) = none ∧ (after 1 (fresh [.regRead 0x70 8])) = none := by decide

/-- While a command runs: an access that is refused, and the read of `STATUS`. -/
theorem witness_RegisterAccessesThatStop_busy :
    ({ fresh [.bufRead .out 0] with busy := true }).busy = true ∧
      ({ fresh [.bufRead .out 0] with busy := true }).script = .bufRead .out 0 :: [] ∧
      (HostAction.bufRead .out 0 ≠ rd .status) ∧ (HostAction.bufRead .out 0 ≠ .reset) ∧
      ({ fresh [rd .status] with busy := true }).script = rd .status :: [] := by decide

/-- First and second clause at the last byte, third at the first address beyond it. -/
theorem witness_HostBufferAccesses :
    (fresh [.bufWrite .b 4294967294 7]).script = .bufWrite .b 4294967294 7 :: [] ∧ 4294967294 < 2 ^ 32 - 1 ∧
      (fresh [.bufRead .out 4294967294]).script = .bufRead .out 4294967294 :: [] ∧
      (fresh [.bufRead .a 4294967295]).script = .bufRead .a 4294967295 :: [] ∧ 2 ^ 32 - 1 ≤ 4294967295 ∧
      (fresh []).busy = false := by decide

theorem witness_FactsFromReset : ∃ i, Reg.res 3 = .res i := ⟨3, rfl⟩

theorem witness_UpdateFormula : cfgRef.rcW = 64 := by decide

theorem witness_ResetEventEffect : (fresh [.reset]).script = .reset :: [] := by decide

theorem witness_StepKeepsSoundState :
    (fresh [.bufWrite .a 5 1]).sound = true ∧ ∃ t, step (fresh [.bufWrite .a 5 1]) = .next t := ⟨by decide, _, rfl⟩

theorem witness_LegalHostNeverStopsTheMachine :
    (fresh [wr .cmd 0, .bufRead .out 4294967294, rd .status, .reset]).busy = false ∧
      (fresh [wr .cmd 0, .bufRead .out 4294967294, rd .status, .reset]).script.all HostAction.legal = true := by decide

theorem witness_LifecycleTransitions :
    (∃ t, exec .zeroize State.reset = .next t) ∧ (∃ t, exec .instantiate State.reset = .next t) ∧
      ∃ t, exec .mix State.reset = .next t := ⟨⟨_, rfl⟩, ⟨_, rfl⟩, ⟨_, rfl⟩⟩

theorem witness_ReseedCounterLaws :
    (Instr.generate true false 0).wellFormed = true ∧ ∃ t, exec (.generate true false 0) State.reset = .next t :=
  ⟨by decide, _, rfl⟩

theorem witness_ReseedCounterIncreases :
    (seeded 1 2 3 4 5 6 0xFFFFFFFFFFFFFFFD []).drbg.rc.toNat < 2 ^ 64 - 2 ∧
      (∃ t, exec .nextU64 (seeded 1 2 3 4 5 6 0xFFFFFFFFFFFFFFFD []) = .next t) ∧
      ∃ t, exec (.generate true false 0) (seeded 1 2 3 4 5 6 0xFFFFFFFFFFFFFFFD []) = .next t ∧ t.err = .ok :=
  ⟨by decide, ⟨_, rfl⟩, _, rfl, rfl⟩

theorem witness_ErrorCauses : ∃ t, command cfgRef (.extract false false) State.reset = .next t := ⟨_, rfl⟩

theorem witness_CommandWriteFrames :
    (∃ t, exec .nextU64 State.reset = .next t) ∧ ∃ t, exec (.extractU64 true) (loaded 1 0 [0x31]) = .next t :=
  ⟨⟨_, rfl⟩, ⟨_, rfl⟩⟩

/-- Byte 0 of A is operand data and stays; byte 1 is beyond `LEN_A` and is replaced. -/
theorem witness_UnreadInputBytesNeverInfluence :
    (∀ x, x < (loaded 1 0 [0x31]).lenA.toNat →
      readByte { loaded 1 0 [0x31] with bufA := [(0, 0x31), (1, 7)], bufB := [] } .a x = readByte (loaded 1 0 [0x31]) .a x) ∧
    (∀ x, x < (loaded 1 0 [0x31]).lenB.toNat →
      readByte { loaded 1 0 [0x31] with bufA := [(0, 0x31), (1, 7)], bufB := [] } .b x = readByte (loaded 1 0 [0x31]) .b x) ∧
    ∃ t, exec .reseed (loaded 1 0 [0x31]) = .next t := by
  refine ⟨fun x hx => ?_, fun x hx => ?_, _, rfl⟩
  · obtain rfl : x = 0 := by change x < 1 at hx; omega
    decide
  · exact absurd hx (by change ¬ x < 0; omega)

theorem witness_SecretHasNoReadPath :
    agreeButSecret (seeded 1 2 3 4 5 6 7 [issue .mix]) (seeded 9 9 9 9 9 9 7 [issue .mix]) ∧
      (seeded 1 2 3 4 5 6 7 [issue .mix]).script = issue .mix :: [] ∧ issue .mix ≠ .reset ∧
      ∀ w, issue .mix = wr .cmd w → w = 0x0800000000000000 ∧
        decodeWord w ≠ .command .instantiate ∧ decodeWord w ≠ .command .reseed ∧ decodeWord w ≠ .command .nextU64 ∧
        decodeWord w ≠ .command .zeroize ∧ ∀ ov pr len, decodeWord w ≠ .command (.generate ov pr len) := by
  refine ⟨rfl, rfl, by decide, fun w hw => ?_⟩
  obtain rfl : w = 0x0800000000000000 := by cases hw; rfl
  have hd : decodeWord 0x0800000000000000#64 = .command .mix := by decide
  simp [hd]

theorem witness_ZeroizeThenInstantiateIsInstantiate : ∃ t, exec .zeroize (seeded 1 2 3 4 5 6 7 []) = .next t := ⟨_, rfl⟩

theorem witness_ControlIsConfigurationIndependent :
    cfgRef.bufCap = { cfgRef with cEps := 1 }.bufCap ∧ cfgRef.rcW = { cfgRef with cEps := 1 }.rcW ∧
      ∃ t, command cfgRef .nextU64 State.reset = .next t := ⟨rfl, rfl, _, rfl⟩

theorem witness_GenerateResult : 16 < 2 ^ 32 ∧ (16 = 0 ∨ true = true) ∧ (0 < 2 ^ 32 ∧ (0 = 0 ∨ false = true)) := by decide

theorem witness_GenerateNullOutputFails : 1 ≠ 0 := by decide

theorem witness_OutputStreamPrefix : 7 ≤ 8 := by decide

theorem witness_NextU64IsGenerateOfEight :
    State.reset.lenB = 0 ∧ (∃ t, exec .nextU64 State.reset = .next t) ∧ ∃ u, exec (.generate true false 8) State.reset = .next u :=
  ⟨rfl, ⟨_, rfl⟩, _, rfl⟩

theorem witness_ExtractResult : (loaded 1 0 [0x31]).lenA ≠ 0 := by decide

theorem witness_ExtractU64Result : (loaded 0xFFFFFFFF 0 [0x31]).lenA ≠ 0 := by decide

/-- Every clause's condition, and a state that fails each command. -/
theorem witness_ExtractErrors :
    (false = false ∨ (loaded 1 0 []).lenA = 0 ∨ true = false) ∧ (true = false ∨ (loaded 0 0 []).lenA = 0 ∨ true = false) ∧
      (true = false ∨ (loaded 1 0 []).lenA = 0 ∨ false = false) ∧ (true = false ∨ (loaded 0 0 []).lenA = 0) := by decide

theorem witness_LoadFormsFillOperands : State.reset.busy = false ∧ [(0x61 : Byte), 0x62].length < 2 ^ 32 := by decide

theorem witness_SeedInstantiatesTheGenerator :
    (loaded 1 0 [0x31]).lenA ≠ 0 ∧ ∃ t, exec (.extractU64 true) (loaded 1 0 [0x31]) = .next t := ⟨by decide, _, rfl⟩

theorem witness_BitCounts : (0 : Word) = 0 ∧ (0xFFFFFFFFFFFFFFFF : Word) ≠ 0 ∧ (1 : Word) ≠ 0 := by decide

theorem witness_IsqrtIsFloorOfRoot : 0 < 2 ^ 34 ∧ 2 ^ 34 - 1 < 2 ^ 34 := by decide

/-- Two keys that differ in words that depth 1 does not use. -/
theorem witness_EpsilonRoundsAndKeyWords :
    ∀ i : Fin 4, i.val ≤ (1#6).toNat → quadGet (⟨1, 2, 3, 4⟩ : Quad Word) i = quadGet ⟨1, 2, 9, 9⟩ i := by decide

theorem witness_LanePacking : 1 < (lanes [1, 2, 3, 4, 5, 6, 7, 8, 9]).length := by decide

theorem witness_ZeroPaddingCollision :
    ([0x61, 0x62, 0x63] : Bytes) ≠ [] ∧ ([0x61, 0x62, 0x63] : Bytes).length % 8 + 5 ≤ 8 ∧
      ([0x61, 0x62, 0x63] : Bytes).length % 8 ≠ 0 := by decide

/-- The strings swapped: three bytes as `entropy`, then the same three as `additional`. -/
theorem witness_DerivationRoleSymmetry :
    let s := loaded 3 0 [0x61, 0x62, 0x63]
    let t := loaded 0 3 [0x61, 0x62, 0x63]
    t = { s with bufA := s.bufB, bufB := s.bufA, lenA := s.lenB, lenB := s.lenA } ∧ s.lenB = 0 ∧
      (∀ a, a < s.lenA.toNat → readByte t .b a = readByte s .a a) ∧ ∃ u, exec .reseed s = .next u :=
  ⟨rfl, rfl, by decide, _, rfl⟩

theorem witness_DiffusionIsInvertible : diffuse cfgRef ⟨1, 2, 3, 4⟩ ⟨5, 6, 7, 8⟩ = diffuse cfgRef ⟨1, 2, 3, 4⟩ ⟨5, 6, 7, 8⟩ := rfl

/-- "a,1" newline "-2.5": two tokens, the start condition at the sign, and a shorter numeral, "-2", at the head of the second
token's window. -/
theorem witness_ScannedTokens :
    (scanTokens [0x61, 0x2C, 0x31, 0x0A, 0x2D, 0x32, 0x2E, 0x35]).length = 2 ∧
      StartsAt [0x61, 0x2C, 0x31, 0x0A, 0x2D, 0x32, 0x2E, 0x35] 4 ∧
      (Numeral.mk (some true) [2] none none).valid = true ∧
      (Numeral.mk (some true) [2] none none).text <+:
        (([0x61, 0x2C, 0x31, 0x0A, 0x2D, 0x32, 0x2E, 0x35] : Bytes).drop 4).take 59 :=
  ⟨by decide, .inr ⟨.inr (.inl rfl), 0x32, rfl, by decide⟩, by decide, by decide⟩

theorem witness_PoolLengthFormula :
    (List.replicate 255 (0 : Byte)).length ≤ 255 ∧ 256 ≤ (List.replicate 256 (0 : Byte)).length :=
  ⟨(List.length_replicate ..).le, (List.length_replicate ..).ge⟩

theorem witness_PrecursorByteFormula : 0 < ([1, 2, 3] : Bytes).length := by decide

theorem witness_HashPadding : ([] : Bytes).length < 2 ^ 61 ∧ ([0x61, 0x62, 0x63] : Bytes).length < 2 ^ 61 := by decide

/-- A finite ratio, the least ratio that rounds to infinity, and the numerals "-0" and "5.e3" (97_test_vectors_seed.md T5). -/
theorem witness_RoundingIsToNearestEven :
    0 < 1 ∧ 0 < 3 ∧ roundRatio 1 3 = 0x3FD5555555555555 ∧ roundRatio ((2 ^ 54 - 1) * 2 ^ 970) 1 = infinityBits ∧
      (Numeral.mk (some true) [0] none none).valid = true ∧
      parseDecRef (Numeral.mk (some true) [0] none none).text = 0x8000000000000000 ∧
      (Numeral.mk none [5] (some []) (some ⟨false, none, [3]⟩)).valid = true ∧
      parseDecRef (Numeral.mk none [5] (some []) (some ⟨false, none, [3]⟩)).text = 0x40B3880000000000 := by decide +kernel

end Sys2Proof.Tests
end

section
/-! The statements on the counting primitives (spec/00_scope.md R10) and on the reference configuration (R6, R7), with the
lemmas that say what `bitlen`, `onesBelow`, `popcount` and `Cfg.wellFormed` compute. -/

namespace Sys2Proof

/-- The constraints of R7 one by one, as `Cfg.wellFormed` collects them. -/
theorem Cfg.wellFormed_iff (c : Cfg) :
    c.wellFormed = true ↔
      oddWord c.cEps = true ∧ c.mul3.toList.all oddWord = true ∧ c.amountsInRange = true ∧
        distinctQuad c.cPd = true ∧ c.perm.toList.all permRow = true ∧ c.counterFits = true := by
  simp only [Cfg.wellFormed, Bool.and_eq_true, and_assoc]

namespace Machine

/-! ## `bitlen` -/

@[simp] theorem bitlen_zero : bitlen 0#64 = 0 := rfl

theorem bitlen_of_ne_zero {x : Word} (h : x ≠ 0) : bitlen x = Nat.log 2 x.toNat + 1 := by
  have hx : x.toNat ≠ 0 := BitVec.toNat_ne.mp h
  rw [bitlen, if_neg hx, Nat.log2_eq_log_two]

theorem bitlen_le (x : Word) : bitlen x ≤ 64 := by
  by_cases h : x = 0
  · simp [h]
  · rw [bitlen_of_ne_zero h]
    exact Nat.log_lt_of_lt_pow (BitVec.toNat_ne.mp h) x.isLt

/-! ## `popcount` -/

/-- `onesBelow n v` counts the positions below `n` where `v` has a one bit. The recursion takes bit 0 off `v`, so the bits
of `v / 2` are those of `v` one position up. -/
theorem onesBelow_eq_countP (n v : Nat) : onesBelow n v = (List.range n).countP v.testBit := by
  induction n generalizing v with
  | zero => rfl
  | succ n ih =>
    have shift : v.testBit ∘ Nat.succ = (v / 2).testBit := funext fun i => Nat.testBit_succ v i
    have low : v % 2 = if v.testBit 0 then 1 else 0 := by
      rcases Nat.mod_two_eq_zero_or_one v with h | h <;> simp [h]
    rw [onesBelow, ih, List.range_succ_eq_map, List.countP_cons, List.countP_map, shift, low, Nat.add_comm]

theorem popcount_eq_countP (x : Word) : popcount x = (List.range 64).countP x.getLsbD :=
  onesBelow_eq_countP 64 x.toNat

theorem popcount_le (x : Word) : popcount x ≤ 64 := by
  rw [popcount_eq_countP]
  exact List.countP_le_length.trans_eq List.length_range

/-! ## The obligations -/

/-- Settles O45, from the value of `bitlen` on each side of 0 and the count that `onesBelow` computes. -/
theorem bitCounts : Obligations.BitCounts := by
  intro x
  refine ⟨?_, bitlen_of_ne_zero, bitlen_le x, ?_, popcount_le x⟩
  · rintro rfl
    exact bitlen_zero
  · rw [popcount_eq_countP, List.countP_eq_length_filter]

/-- Settles O44: each constraint of R7 on the literal constants of `CFG_REF`. -/
theorem referenceConfigurationIsWellFormed : Obligations.ReferenceConfigurationIsWellFormed := by
  refine (Cfg.wellFormed_iff cfgRef).mpr ⟨?odd_eps, ?odd_multipliers, ?amounts, ?distinct_pd, ?perm_rows, ?counter⟩
  case odd_eps => decide
  case odd_multipliers => decide
  case amounts => decide
  case distinct_pd => decide
  case perm_rows => decide
  case counter => decide

end Machine
end Sys2Proof
end

section
/-! The statements on the registers, the status word, the reset state and the steps that serve a host access
(spec/10_state.md R19 to R34, spec/70_reset_and_hazards.md R145). The lemmas before them say where each register stands,
what `regValue` and `regStore` do to each, and what `serve` answers in each of its cases. -/

namespace Sys2Proof.Machine

/-! ## The register map (R26) -/

theorem regAt_eq_some_iff {off : Nat} {r : Reg} : regAt off = some r ↔ off = r.offset := by
  constructor
  · intro h
    have found := List.find?_some (p := fun r : Reg => r.offset == off) h
    exact (beq_iff_eq.mp found).symm
  · rintro rfl
    exact regAt_offset r

theorem allRegs_map_offset :
    allRegs.map Reg.offset = [0x00, 0x08, 0x10, 0x18, 0x20, 0x28, 0x30, 0x38, 0x40, 0x48, 0x50, 0x58, 0x60, 0x68] := rfl

/-- The offsets of the map are the multiples of 8 below 0x70. -/
theorem regAt_eq_none_iff {off : Nat} : regAt off = none ↔ off % 8 ≠ 0 ∨ 0x70 ≤ off := by
  have not_listed : regAt off = none ↔ off ∉ allRegs.map Reg.offset := by simp [regAt]
  rw [not_listed, allRegs_map_offset]
  simp only [List.mem_cons, List.not_mem_nil, or_false]
  omega

/-! ## The cases of `withReg` (R26, R27) -/

theorem withReg_beyond {off : Nat} (width : Nat) (k : Reg → Out) (h : 256 ≤ off) :
    withReg off width k = .fault (.noSuchRegister off) := if_pos h

theorem withReg_not_aligned {off width : Nat} (k : Reg → Out) (hoff : off < 256) (h : width ≠ 8 ∨ off % 8 ≠ 0) :
    withReg off width k = .refused (.notAlignedWord off width) := by
  rw [withReg, if_neg (Nat.not_le.mpr hoff), if_pos h]

theorem withReg_reserved {off : Nat} (k : Reg → Out) (hoff : off < 256) (haligned : off % 8 = 0) (h : 0x70 ≤ off) :
    withReg off 8 k = .refused (.reservedRegister off) := by
  have none_there : regAt off = none := regAt_eq_none_iff.mpr (.inr h)
  rw [withReg, if_neg (Nat.not_le.mpr hoff), if_neg (by omega), none_there]

/-! ## The cases of `serve` -/

section Serve

variable {c : Cfg} {run : Word → State → Out} {s : State}

/-- While a command runs only these two actions are served (R140, R145). -/
theorem allowedWhileBusy_iff {a : HostAction} : allowedWhileBusy a = true ↔ a = rd .status ∨ a = .reset := by
  cases a <;> simp [allowedWhileBusy, rd, Reg.offset]

theorem serve_refused_while_busy {a : HostAction} (hbusy : s.busy = true) (hrd : a ≠ rd .status) (hreset : a ≠ .reset) :
    serve c run a s = .refused .accessWhileBusy := by
  have not_allowed : allowedWhileBusy a = false := by
    rw [← Bool.not_eq_true, allowedWhileBusy_iff]
    exact not_or.mpr ⟨hrd, hreset⟩
  rw [serve.eq_def, hbusy, not_allowed]
  rfl

theorem serve_regWrite (hbusy : s.busy = false) (off width : Nat) (v : Word) :
    serve c run (.regWrite off width v) s = withReg off width fun r =>
      if r = .cmd then run v { s with busy := true } else .next (regStore s r v) := by
  simp [serve, hbusy]

theorem serve_regRead {off width : Nat} (h : s.busy = false ∨ allowedWhileBusy (.regRead off width) = true) :
    serve c run (.regRead off width) s = withReg off width fun r => .next { s with readData := regValue s r } := by
  rcases h with hbusy | hallowed
  · simp [serve, hbusy]
  · simp [serve, hallowed]

theorem serve_bufWrite (hbusy : s.busy = false) (sp : Space) (a : Nat) (b : Byte) :
    serve c run (.bufWrite sp a b) s = if c.bufCap ≤ a then .fault (.noSuchByte sp a) else .next (bufPut s sp a b) := by
  simp [serve, hbusy]

theorem serve_bufRead (hbusy : s.busy = false) (sp : Space) (a : Nat) :
    serve c run (.bufRead sp a) s = if c.bufCap ≤ a then .fault (.noSuchByte sp a)
      else .next { s with readData := (bufValue s sp a).setWidth 64 } := by
  simp [serve, hbusy]

theorem serve_wr_cmd (hbusy : s.busy = false) (w : Word) : serve c run (wr .cmd w) s = run w { s with busy := true } := by
  rw [wr, serve_regWrite hbusy, withReg_offset, if_pos rfl]

theorem serve_wr_of_ne_cmd (hbusy : s.busy = false) {r : Reg} (hr : r ≠ .cmd) (v : Word) :
    serve c run (wr r v) s = .next (regStore s r v) := by
  rw [wr, serve_regWrite hbusy, withReg_offset, if_neg hr]

theorem serve_rd (hbusy : s.busy = false) (r : Reg) : serve c run (rd r) s = .next { s with readData := regValue s r } := by
  rw [rd, serve_regRead (.inl hbusy), withReg_offset]

/-- `STATUS` can be read whether a command runs or not. -/
theorem serve_rd_status : serve c run (rd .status) s = .next { s with readData := statusWord s } := by
  rw [rd, serve_regRead (.inr (allowedWhileBusy_iff.mpr (.inl rfl))), withReg_offset]
  rfl

end Serve

theorem step_of_script_cons {s : State} {a : HostAction} {rest : List HostAction} (h : s.script = a :: rest) :
    step s = serve cfgRef runCommand a { s with script := rest } := by
  rw [step, h]

/-- The write of `CMD` runs the word with `BUSY` set (R21, R22). -/
theorem step_wr_cmd {s : State} {w : Word} {rest : List HostAction} (hbusy : s.busy = false)
    (h : s.script = wr .cmd w :: rest) : step s = runCommand w { s with script := rest, busy := true } :=
  (step_of_script_cons h).trans (serve_wr_cmd (s := { s with script := rest }) hbusy w)

theorem step_wr_of_ne_cmd {s : State} {r : Reg} {v : Word} {rest : List HostAction} (hbusy : s.busy = false)
    (hr : r ≠ .cmd) (h : s.script = wr r v :: rest) : step s = .next (regStore { s with script := rest } r v) :=
  (step_of_script_cons h).trans (serve_wr_of_ne_cmd (s := { s with script := rest }) hbusy hr v)

theorem step_rd {s : State} {r : Reg} {rest : List HostAction} (hbusy : s.busy = false) (h : s.script = rd r :: rest) :
    step s = .next { s with script := rest, readData := regValue { s with script := rest } r } :=
  (step_of_script_cons h).trans (serve_rd (s := { s with script := rest }) hbusy r)

/-- An access of the host to the REG space, while no command runs, stops as the offset and the width make it stop, whether
it writes or reads. -/
theorem step_regAccess {s : State} {rest : List HostAction} {off width : Nat} {v : Word} (hbusy : s.busy = false)
    (h : s.script = .regWrite off width v :: rest ∨ s.script = .regRead off width :: rest) :
    ∃ k, step s = withReg off width k := by
  rcases h with hwrite | hread
  · exact ⟨_, (step_of_script_cons hwrite).trans (serve_regWrite (s := { s with script := rest }) hbusy off width v)⟩
  · exact ⟨_, (step_of_script_cons hread).trans (serve_regRead (s := { s with script := rest }) (.inl hbusy))⟩

theorem runCommand_of_decode {w : Word} {i : Instr} (h : decodeWord w = .command i) (s : State) :
    runCommand w s = exec i s := by
  rw [runCommand, h]

/-! ## The lengths as the host reads them (R23) -/

theorem regValue_lenA (s : State) : regValue s .lenA = BitVec.ofNat 64 s.lenA.toNat :=
  (BitVec.ofNat_toNat 64 s.lenA).symm

theorem regValue_lenB (s : State) : regValue s .lenB = BitVec.ofNat 64 s.lenB.toNat :=
  (BitVec.ofNat_toNat 64 s.lenB).symm

/-! ## A write of each register (R23, R24, R27) -/

/-- A register write reaches `LEN_A`, `LEN_B` and `ARG` only. -/
theorem regStore_eq (s : State) (r : Reg) (v : Word) :
    regStore s r v =
      { s with lenA := (regStore s r v).lenA, lenB := (regStore s r v).lenB, arg := (regStore s r v).arg } := by
  cases r <;> rfl

theorem regStore_lenA_toNat (s : State) (r : Reg) (v : Word) :
    (regStore s r v).lenA.toNat = if r = .lenA then v.toNat % 2 ^ 32 else s.lenA.toNat := by
  cases r with
  | lenA => exact BitVec.toNat_setWidth 32 v
  | _ => rfl

theorem regStore_lenB_toNat (s : State) (r : Reg) (v : Word) :
    (regStore s r v).lenB.toNat = if r = .lenB then v.toNat % 2 ^ 32 else s.lenB.toNat := by
  cases r with
  | lenB => exact BitVec.toNat_setWidth 32 v
  | _ => rfl

theorem argGet_regStore (s : State) (r : Reg) (v : Word) (i : Fin 5) :
    argGet (regStore s r v).arg i = if r = .arg i then v else argGet s.arg i := by
  cases r with
  | arg j =>
    by_cases hij : j = i
    · subst hij
      simp [regStore]
    · simp [regStore, argGet_argSet_other _ _ (Ne.symm hij), hij]
  | _ => rfl

/-! ## The three parts of the status word (R21) -/

theorem lifeCode_fields (l : Life) :
    let x : Word := BitVec.ofNat 64 (lifeCode l)
    x.extractLsb' 0 2 = BitVec.ofNat 2 (lifeCode l) ∧ x.extractLsb' 2 2 = 0#2 ∧ x.extractLsb' 4 4 = 0#4 ∧
      x.getLsbD 8 = false ∧ x.extractLsb' 9 55 = 0#55 := by
  cases l <;> decide

theorem errCode_fields (e : ErrCode) :
    let x : Word := BitVec.ofNat 64 (errCode e) <<< 4
    x.extractLsb' 0 2 = 0#2 ∧ x.extractLsb' 2 2 = 0#2 ∧ x.extractLsb' 4 4 = BitVec.ofNat 4 (errCode e) ∧
      x.getLsbD 8 = false ∧ x.extractLsb' 9 55 = 0#55 := by
  cases e <;> decide

theorem busyBit_fields (b : Bool) :
    let x : Word := BitVec.ofNat 64 (if b then 1 else 0) <<< 8
    x.extractLsb' 0 2 = 0#2 ∧ x.extractLsb' 2 2 = 0#2 ∧ x.extractLsb' 4 4 = 0#4 ∧ x.getLsbD 8 = b ∧
      x.extractLsb' 9 55 = 0#55 := by
  cases b <;> decide

/-! ## Soundness, field by field -/

theorem State.sound_iff (s : State) :
    s.sound = true ↔
      (∀ sp, Memory.wf cfgRef.bufCap (s.buf sp) = true) ∧ s.busy = false ∧ s.err ≠ .ioFailure := by
  have all_spaces : (∀ sp, Memory.wf cfgRef.bufCap (s.buf sp) = true) ↔
      Memory.wf cfgRef.bufCap s.bufA = true ∧ Memory.wf cfgRef.bufCap s.bufB = true ∧
        Memory.wf cfgRef.bufCap s.bufOut = true :=
    ⟨fun h => ⟨h .a, h .b, h .out⟩, fun ⟨ha, hb, hout⟩ sp => by cases sp <;> assumption⟩
  rw [all_spaces]
  simp only [State.sound, Bool.and_eq_true, Bool.not_eq_true', bne_iff_ne, and_assoc]

/-! ## The obligations -/

/-- Settles O6: the step serves the write of `CMD`, which runs the decoded command. -/
theorem stepRunsDecodedCommand : Obligations.StepRunsDecodedCommand := by
  intro s rest w i hbusy hscript hdecode
  rw [step_wr_cmd hbusy hscript, runCommand_of_decode hdecode]

/-- Settles O8: the read goes on with `regValue`, which is compared with the statement's value register by register. -/
theorem hostRegisterReads : Obligations.HostRegisterReads := by
  intro s r rest hbusy hscript
  rw [step_rd hbusy hscript]
  cases r with
  | lenA => rw [regValue_lenA]
  | lenB => rw [regValue_lenB]
  | _ => rfl

/-- Settles O9: the write goes on with `regStore`. -/
theorem hostRegisterWrites : Obligations.HostRegisterWrites := by
  intro s r v rest hbusy hr hscript
  exact ⟨regStore { s with script := rest } r v, step_wr_of_ne_cmd hbusy hr hscript, regStore_eq _ r v,
    regStore_lenA_toNat _ r v, regStore_lenB_toNat _ r v, argGet_regStore _ r v⟩

/-- Settles O10: a field of a union of three words is the union of their fields, of which at most one is not 0. -/
theorem statusRegisterFields : Obligations.StatusRegisterFields := by
  intro s
  obtain ⟨life₀, life₂, life₄, life₈, life₉⟩ := lifeCode_fields s.life
  obtain ⟨err₀, err₂, err₄, err₈, err₉⟩ := errCode_fields s.err
  obtain ⟨busy₀, busy₂, busy₄, busy₈, busy₉⟩ := busyBit_fields s.busy
  simp only [statusWord, BitVec.extractLsb'_or, BitVec.getLsbD_or]
  refine ⟨?lifeField, ?gap, ?errField, ?busyField, ?upper⟩
  case lifeField => rw [life₀, err₀, busy₀, BitVec.or_zero, BitVec.or_zero]; cases s.life <;> rfl
  case gap => rw [life₂, err₂, busy₂, BitVec.or_zero, BitVec.or_zero]
  case errField => rw [life₄, err₄, busy₄, BitVec.zero_or, BitVec.or_zero]; cases s.err <;> rfl
  case busyField => rw [life₈, err₈, busy₈, Bool.false_or, Bool.false_or]
  case upper => rw [life₉, err₉, busy₉, BitVec.or_zero, BitVec.or_zero]

/-- Settles O11: the list of the offsets, and `regAt` in both directions. -/
theorem registerMapOffsets : Obligations.RegisterMapOffsets :=
  ⟨allRegs_map_offset, fun _ _ => regAt_eq_some_iff, fun _ => regAt_eq_none_iff⟩

/-- Settles O12: the three ways `withReg` stops, and the two ways `serve` answers while `BUSY` is 1. -/
theorem registerAccessesThatStop : Obligations.RegisterAccessesThatStop := by
  refine ⟨fun s rest off width v hbusy hscript => ?idle, fun s rest a hbusy hscript => ?running⟩
  case idle =>
    obtain ⟨k, hstep⟩ := step_regAccess hbusy hscript
    rw [hstep]
    refine ⟨withReg_beyond width k, fun ⟨hoff, hbad⟩ => withReg_not_aligned k hoff hbad, ?_⟩
    rintro ⟨hreserved, hoff, rfl, haligned⟩
    exact withReg_reserved k hoff haligned hreserved
  case running =>
    rw [step_of_script_cons hscript]
    refine ⟨serve_refused_while_busy hbusy, ?_⟩
    rintro rfl
    obtain ⟨-, -, -, busyField, -⟩ := statusRegisterFields s
    exact ⟨serve_rd_status, busyField.trans hbusy⟩

/-- Settles O14: the reset values, and that the buffers then list no byte. -/
theorem resetStateValues : Obligations.ResetStateValues := by
  refine ⟨?key, rfl, rfl, rfl, rfl, rfl, rfl, rfl, ?arg, ?res, ?bytes⟩
  case key => intro i; fin_cases i <;> rfl
  case arg => intro i; fin_cases i <;> rfl
  case res => intro i; fin_cases i <;> rfl
  case bytes => intro sp a; cases sp <;> rfl

/-- Settles O18: each clause of `State.sound_iff` at the reset values. -/
theorem resetIsSound : Obligations.ResetIsSound :=
  (State.sound_iff State.reset).mpr ⟨wf_reset cfgRef.bufCap, rfl, by decide⟩

end Sys2Proof.Machine
end

section
/-! Every command goes on. The lemmas of Sys2Proof/Laws/Commands.lean read a command's checks off its result; the ones here
give the result from its checks, so that a fact about one run carries over to a second run whose checks agree with the
first's. -/

namespace Sys2Proof.Machine

section Forward

variable {c : Cfg} {s : State}

theorem reseedCmd_of_overCap (h : c.bufCap < s.lenA.toNat ∨ c.bufCap < s.lenB.toNat) :
    reseedCmd c s = .next { s with err := .invalidArgument, busy := false } := by
  rw [reseedCmd, if_pos (by simpa using h)]
  rfl

theorem reseedCmd_of_fits (h : s.lenA.toNat ≤ c.bufCap ∧ s.lenB.toNat ≤ c.bufCap) :
    reseedCmd c s = .next { s with drbg := reseedDrbg c s, err := .ok, busy := false } := by
  rw [reseedCmd, if_neg (by simpa using h)]
  rfl

theorem generateCmd_of_invalid {ov : Bool} {len : Nat}
    (h : (len ≠ 0 ∧ ov = false) ∨ c.bufCap < len ∨ c.bufCap < s.lenB.toNat) :
    generateCmd c ov len s = .next { s with err := .invalidArgument, busy := false } := by
  by_cases null_output : len ≠ 0 ∧ ov = false
  · rw [generateCmd, if_pos (by simpa using null_output)]
    rfl
  · rw [generateCmd, if_neg (by simpa using null_output), if_pos (by simpa using h.resolve_left null_output)]
    rfl

theorem generateCmd_of_valid {ov : Bool} {len : Nat}
    (h : ¬(len ≠ 0 ∧ ov = false) ∧ len ≤ c.bufCap ∧ s.lenB.toNat ≤ c.bufCap) :
    generateCmd c ov len s = .next
      { memWrite { s with drbg := postUpdate c (preUpdate c s) len } .out 0
          (stream c (preUpdate c s).k (preUpdate c s).v len) with err := .ok, busy := false } := by
  obtain ⟨houtput, hfits⟩ := h
  rw [generateCmd, if_neg (by simpa using houtput), if_neg (by simpa using hfits)]
  rfl

theorem extractCmd_of_invalid {dv ov : Bool}
    (h : dv = false ∨ s.lenA = 0#32 ∨ ov = false ∨ c.bufCap < s.lenA.toNat) :
    extractCmd c dv ov s = .next { s with err := .invalidArgument, busy := false } := by
  unfold extractCmd
  split_ifs with no_data no_output too_long
  · rfl
  · rfl
  · rfl
  · exfalso
    simp only [Bool.or_eq_true, Bool.not_eq_true', decide_eq_true_eq, overCap_eq_true] at no_data no_output too_long
    tauto

theorem extractCmd_of_valid {dv ov : Bool} (h : dv = true ∧ s.lenA ≠ 0#32 ∧ ov = true ∧ s.lenA.toNat ≤ c.bufCap) :
    extractCmd c dv ov s = .next
      { memWrite s .out 0 (extractSeed c (inputA s)).toList with err := .ok, busy := false } := by
  obtain ⟨rfl, hlen, rfl, hfits⟩ := h
  rw [extractCmd, if_neg (by simpa using hlen), if_neg (by simp), if_neg (by simpa using hfits)]
  rfl

theorem extractU64Cmd_of_invalid {dv : Bool} (h : dv = false ∨ s.lenA = 0#32 ∨ c.bufCap < s.lenA.toNat) :
    extractU64Cmd c dv s = .next { s with err := .invalidArgument, busy := false } := by
  unfold extractU64Cmd
  split_ifs with no_data too_long
  · rfl
  · rfl
  · exfalso
    simp only [Bool.or_eq_true, Bool.not_eq_true', decide_eq_true_eq, overCap_eq_true] at no_data too_long
    tauto

theorem extractU64Cmd_of_valid {dv : Bool} (h : dv = true ∧ s.lenA ≠ 0#32 ∧ s.lenA.toNat ≤ c.bufCap) :
    extractU64Cmd c dv s = .next { s with
      res := ⟨seedWord (extractSeed c (inputA s)) 0, seedWord (extractSeed c (inputA s)) 1,
        seedWord (extractSeed c (inputA s)) 2, seedWord (extractSeed c (inputA s)) 3⟩
      err := .ok, busy := false } := by
  obtain ⟨rfl, hlen, hfits⟩ := h
  rw [extractU64Cmd, if_neg (by simpa using hlen), if_neg (by simpa using hfits)]
  rfl

end Forward

/-- No command stops the machine. -/
theorem command_goes_on (c : Cfg) (i : Instr) (s : State) : ∃ t, command c i s = .next t := by
  cases i with
  | instantiate => exact ⟨_, rfl⟩
  | reseed =>
    rw [command, reseedCmd]
    split_ifs <;> exact ⟨_, rfl⟩
  | generate ov _ len =>
    rw [command, generateCmd]
    split_ifs <;> exact ⟨_, rfl⟩
  | nextU64 => exact ⟨_, rfl⟩
  | zeroize => exact ⟨_, rfl⟩
  | mix => exact ⟨_, rfl⟩
  | extract dv ov =>
    rw [command, extractCmd]
    split_ifs <;> exact ⟨_, rfl⟩
  | extractU64 dv =>
    rw [command, extractU64Cmd]
    split_ifs <;> exact ⟨_, rfl⟩

end Sys2Proof.Machine
end

section
/-! The statements on the lifecycle, on the reseed counter and on what does not depend on the constants
(spec/10_state.md R19, R20, spec/42_drbg_commands.md R92, R96, spec/20_memory.md R37). -/

namespace Sys2Proof.Machine

/-! ## The lifecycle (R20, R96) -/

/-- The `LIFE` a command leaves, from the one it finds. -/
def lifeAfter (i : Instr) (l : Life) : Life :=
  match i with
  | .instantiate => .ready
  | .zeroize => .zeroized
  | _ => l

theorem command_life {c : Cfg} {i : Instr} {s t : State} (h : command c i s = .next t) : t.life = lifeAfter i s.life := by
  cases i with
  | instantiate => obtain rfl := instantiateCmd_eq_next.mp h; rfl
  | reseed => obtain ⟨-, rfl⟩ | ⟨-, rfl⟩ := reseedCmd_eq_next h <;> rfl
  | generate ov _ len => obtain ⟨-, rfl⟩ | ⟨-, rfl⟩ := generateCmd_eq_next h <;> rfl
  | nextU64 => obtain rfl := nextU64Cmd_eq_next.mp h; rfl
  | zeroize => obtain rfl := zeroizeCmd_eq_next.mp h; rfl
  | mix => obtain rfl := mixCmd_eq_next.mp h; rfl
  | extract dv ov => obtain ⟨-, rfl⟩ | ⟨-, rfl⟩ := extractCmd_eq_next h <;> rfl
  | extractU64 dv => obtain ⟨-, rfl⟩ | ⟨-, rfl⟩ := extractU64Cmd_eq_next h <;> rfl

/-- No command reads `LIFE`: none of its checks does, and neither does anything it computes (R96). -/
theorem command_with_other_life {c : Cfg} {i : Instr} {s t : State} (h : command c i s = .next t) (l : Life) :
    command c i { s with life := l } = .next { t with life := lifeAfter i l } := by
  cases i with
  | instantiate => obtain rfl := instantiateCmd_eq_next.mp h; rfl
  | reseed =>
    obtain ⟨hbad, rfl⟩ | ⟨hgood, rfl⟩ := reseedCmd_eq_next h
    · exact reseedCmd_of_overCap hbad
    · exact reseedCmd_of_fits hgood
  | generate ov _ len =>
    obtain ⟨hbad, rfl⟩ | ⟨hgood, rfl⟩ := generateCmd_eq_next h
    · exact generateCmd_of_invalid hbad
    · exact generateCmd_of_valid hgood
  | nextU64 => obtain rfl := nextU64Cmd_eq_next.mp h; rfl
  | zeroize => obtain rfl := zeroizeCmd_eq_next.mp h; rfl
  | mix => obtain rfl := mixCmd_eq_next.mp h; rfl
  | extract dv ov =>
    obtain ⟨hbad, rfl⟩ | ⟨hgood, rfl⟩ := extractCmd_eq_next h
    · exact extractCmd_of_invalid hbad
    · exact extractCmd_of_valid hgood
  | extractU64 dv =>
    obtain ⟨hbad, rfl⟩ | ⟨hgood, rfl⟩ := extractU64Cmd_eq_next h
    · exact extractU64Cmd_of_invalid hbad
    · exact extractU64Cmd_of_valid hgood

/-! ## The reseed counter (R19) -/

theorem preUpdate_rc (c : Cfg) (s : State) :
    (preUpdate c s).rc = if s.lenB = 0#32 then s.drbg.rc else countUp c s.drbg.rc := by
  rw [preUpdate, apply_ite Drbg.rc, update_rc]

theorem postUpdate_rc (c : Cfg) (d : Drbg) (len : Nat) : (postUpdate c d len).rc = countUp c d.rc := rfl

/-- Of the configuration the counter depends on its width alone. -/
theorem countUp_congr {c c' : Cfg} (h : c.rcW = c'.rcW) (rc : Word) : countUp c rc = countUp c' rc := by
  rw [countUp, countUp, h]

theorem instantiateDrbg_rc (c : Cfg) (s : State) : (instantiateDrbg c s).rc = 1 := rfl

theorem reseedDrbg_rc (c : Cfg) (s : State) : (reseedDrbg c s).rc = 1 := rfl

/-- The counter after a GENERATE that passes its checks under `CFG_REF`: the update before the blocks, where there is one,
and the update after them count. -/
theorem generate_rc_cfgRef (s : State) (len : Nat) :
    (postUpdate cfgRef (preUpdate cfgRef s) len).rc =
      if s.lenB = 0#32 then s.drbg.rc + 1 else s.drbg.rc + 2 := by
  rw [postUpdate_rc, preUpdate_rc, countUp_cfgRef, countUp_cfgRef]
  split_ifs
  · rfl
  · rw [BitVec.add_assoc]
    rfl

theorem word32_le_bufCap (n : Word32) : n.toNat ≤ cfgRef.bufCap := overCap_eq_false.mp (overCap_cfgRef_word n)

theorem wellFormed_len_le_bufCap {ov pr : Bool} {len : Nat} (h : (Instr.generate ov pr len).wellFormed = true) :
    len ≤ cfgRef.bufCap := by
  have hlen : len < 2 ^ 32 := of_decide_eq_true h
  exact Nat.le_sub_one_of_lt hlen

/-! ## The listed addresses of a buffer (log entry 1) -/

/-- Which addresses a store leaves listed depends on the listed addresses and on the address stored to, not on the bytes. -/
theorem bufStore_addresses_congr {m m' : Buffer} (h : m.map Prod.fst = m'.map Prod.fst) (a : Nat) (b b' : Byte) :
    (bufStore m a b).map Prod.fst = (bufStore m' a b').map Prod.fst := by
  induction m generalizing m' with
  | nil =>
    obtain rfl : m' = [] := by simpa using h.symm
    rfl
  | cons e rest ih =>
    obtain ⟨x, y⟩ := e
    cases m' with
    | nil => simp at h
    | cons e' rest' =>
      obtain ⟨x', y'⟩ := e'
      obtain ⟨rfl, hrest⟩ : x = x' ∧ rest.map Prod.fst = rest'.map Prod.fst := by simpa using h
      simp only [bufStore]
      split_ifs
      · simp [hrest]
      · simp [hrest]
      · simp [ih hrest]

theorem bufStoreAll_addresses_congr {m m' : Buffer} {bs bs' : Bytes} (h : m.map Prod.fst = m'.map Prod.fst)
    (hlen : bs.length = bs'.length) (a : Nat) :
    (bufStoreAll m a bs).map Prod.fst = (bufStoreAll m' a bs').map Prod.fst := by
  induction bs generalizing m m' bs' a with
  | nil =>
    obtain rfl : bs' = [] := List.length_eq_zero_iff.mp hlen.symm
    exact h
  | cons b rest ih =>
    cases bs' with
    | nil => simp at hlen
    | cons b' rest' => exact ih (bufStore_addresses_congr h a b b') (Nat.succ.inj hlen) (a + 1)

theorem blocks_length (c : Cfg) (k : Quad Word) (n : Nat) (v : Counter) : (blocks c k n v).length = n := by
  induction n generalizing v with
  | zero => rfl
  | succ n ih => rw [blocks, List.length_cons, ih]

/-- GENERATE stores as many bytes as it was asked for (R92). -/
theorem stream_length (c : Cfg) (k : Quad Word) (v : Counter) (len : Nat) : (stream c k v len).length = len := by
  have eight_a_block : ((blocks c k (blockCount len) v).flatMap le64).length = blockCount len * 8 := by
    rw [List.length_flatMap]
    simp [blocks_length]
  rw [stream, List.length_take, eight_a_block, blockCount]
  omega

/-! ## Two configurations of the same capacity -/

/-- `t`, left under `c`, and `t'`, left under `c'`, agree on what does not depend on the constants. -/
structure SameControl (c c' : Cfg) (t t' : State) : Prop where
  err : t'.err = t.err
  life : t'.life = t.life
  rc : c.rcW = c'.rcW → t'.drbg.rc = t.drbg.rc
  addresses : t'.bufOut.map Prod.fst = t.bufOut.map Prod.fst

section SameControl

variable {c c' : Cfg}

theorem SameControl.refl (t : State) : SameControl c c' t t := ⟨rfl, rfl, fun _ => rfl, rfl⟩

/-- Two results that leave OUT alone: the registers may differ in everything but the counter, the `RES` words at will. -/
theorem SameControl.of_registers {d d' : Drbg} (hrc : c.rcW = c'.rcW → d'.rc = d.rc) (s : State) (l : Life)
    (r r' : Quad Word) :
    SameControl c c' { s with drbg := d, life := l, err := .ok, busy := false, res := r }
      { s with drbg := d', life := l, err := .ok, busy := false, res := r' } :=
  ⟨rfl, rfl, hrc, rfl⟩

/-- Two results that store byte strings of the same length in OUT. -/
theorem SameControl.of_stored {d d' : Drbg} (hrc : c.rcW = c'.rcW → d'.rc = d.rc) (s : State) {bs bs' : Bytes}
    (hlen : bs'.length = bs.length) :
    SameControl c c' { memWrite { s with drbg := d } .out 0 bs with err := .ok, busy := false }
      { memWrite { s with drbg := d' } .out 0 bs' with err := .ok, busy := false } :=
  ⟨rfl, rfl, hrc, bufStoreAll_addresses_congr rfl hlen 0⟩

end SameControl

/-- The checks of a command read the capacity alone, so under two configurations of the same capacity both runs take the
same branch. -/
theorem command_control_congr {c c' : Cfg} {i : Instr} {s t : State} (hcap : c.bufCap = c'.bufCap)
    (h : command c i s = .next t) : ∃ t', command c' i s = .next t' ∧ SameControl c c' t t' := by
  cases i with
  | instantiate =>
    obtain rfl := instantiateCmd_eq_next.mp h
    have same_rc : (instantiateDrbg c' s).rc = (instantiateDrbg c s).rc :=
      (instantiateDrbg_rc c' s).trans (instantiateDrbg_rc c s).symm
    exact ⟨_, instantiateCmd_eq_next.mpr rfl, .of_registers (fun _ => same_rc) s .ready s.res s.res⟩
  | reseed =>
    obtain ⟨hbad, rfl⟩ | ⟨hgood, rfl⟩ := reseedCmd_eq_next h
    · exact ⟨_, reseedCmd_of_overCap (hcap ▸ hbad), .refl _⟩
    · have same_rc : (reseedDrbg c' s).rc = (reseedDrbg c s).rc :=
        (reseedDrbg_rc c' s).trans (reseedDrbg_rc c s).symm
      exact ⟨_, reseedCmd_of_fits (hcap ▸ hgood), .of_registers (fun _ => same_rc) s s.life s.res s.res⟩
  | generate ov pr len =>
    obtain ⟨hbad, rfl⟩ | ⟨hgood, rfl⟩ := generateCmd_eq_next h
    · exact ⟨_, generateCmd_of_invalid (hcap ▸ hbad), .refl _⟩
    · have same_rc (hwidth : c.rcW = c'.rcW) :
          (postUpdate c' (preUpdate c' s) len).rc = (postUpdate c (preUpdate c s) len).rc := by
        simp only [postUpdate_rc, preUpdate_rc, countUp_congr hwidth]
      exact ⟨_, generateCmd_of_valid (hcap ▸ hgood),
        .of_stored same_rc s ((stream_length ..).trans (stream_length ..).symm)⟩
  | nextU64 =>
    obtain rfl := nextU64Cmd_eq_next.mp h
    exact ⟨_, nextU64Cmd_eq_next.mpr rfl,
      .of_registers (fun hwidth => (countUp_congr hwidth s.drbg.rc).symm) s s.life _ _⟩
  | zeroize =>
    obtain rfl := zeroizeCmd_eq_next.mp h
    exact ⟨_, zeroizeCmd_eq_next.mpr rfl, .refl _⟩
  | mix =>
    obtain rfl := mixCmd_eq_next.mp h
    exact ⟨_, mixCmd_eq_next.mpr rfl, .of_registers (fun _ => rfl) s s.life _ _⟩
  | extract dv ov =>
    obtain ⟨hbad, rfl⟩ | ⟨hgood, rfl⟩ := extractCmd_eq_next h
    · exact ⟨_, extractCmd_of_invalid (hcap ▸ hbad), .refl _⟩
    · exact ⟨_, extractCmd_of_valid (hcap ▸ hgood),
        .of_stored (d := s.drbg) (d' := s.drbg) (fun _ => rfl) s (by simp only [Vector.length_toList])⟩
  | extractU64 dv =>
    obtain ⟨hbad, rfl⟩ | ⟨hgood, rfl⟩ := extractU64Cmd_eq_next h
    · exact ⟨_, extractU64Cmd_of_invalid (hcap ▸ hbad), .refl _⟩
    · exact ⟨_, extractU64Cmd_of_valid (hcap ▸ hgood), .of_registers (fun _ => rfl) s s.life _ _⟩

/-! ## The obligations -/

/-- Settles O20: the lifecycle of one run, and that a run with another `LIFE` follows it. -/
theorem lifecycleTransitions : Obligations.LifecycleTransitions := by
  refine ⟨rfl, resetEvent_life, fun i s t h => ?_⟩
  rw [exec_eq_command] at h
  have kept := command_life h
  have blind := command_with_other_life h
  simp only [exec_eq_command]
  cases i <;> exact ⟨kept, blind⟩

/-- Settles O21: the counter of each command's result, where under `CFG_REF` no length of a well-formed command is over the
capacity. -/
theorem reseedCounterLaws : Obligations.ReseedCounterLaws := by
  intro i s t hwf h
  rw [exec_eq_command] at h
  have lenA_fits := word32_le_bufCap s.lenA
  have lenB_fits := word32_le_bufCap s.lenB
  cases i with
  | instantiate => obtain rfl := instantiateCmd_eq_next.mp h; rfl
  | reseed =>
    obtain ⟨hover, -⟩ | ⟨-, rfl⟩ := reseedCmd_eq_next h
    · omega
    · rfl
  | generate ov pr len =>
    have len_fits := wellFormed_len_le_bufCap hwf
    obtain ⟨hbad, rfl⟩ | ⟨⟨houtput, -⟩, rfl⟩ := generateCmd_eq_next h
    · have null_output : len ≠ 0 ∧ ov = false := hbad.resolve_right (by omega)
      exact (if_pos null_output).symm
    · exact (generate_rc_cfgRef s len).trans (if_neg houtput).symm
  | nextU64 => obtain rfl := nextU64Cmd_eq_next.mp h; exact countUp_cfgRef _
  | zeroize => obtain rfl := zeroizeCmd_eq_next.mp h; rfl
  | mix => obtain rfl := mixCmd_eq_next.mp h; rfl
  | extract dv ov => obtain ⟨-, rfl⟩ | ⟨-, rfl⟩ := extractCmd_eq_next h <;> rfl
  | extractU64 dv => obtain ⟨-, rfl⟩ | ⟨-, rfl⟩ := extractU64Cmd_eq_next h <;> rfl

/-- Settles O29: the run under the other configuration leaves the same control. -/
theorem controlIsConfigurationIndependent : Obligations.ControlIsConfigurationIndependent := by
  intro c c' i s t hcap h
  obtain ⟨t', h', same⟩ := command_control_congr hcap h
  exact ⟨t', h', same.err, same.life, same.rc, same.addresses⟩

end Sys2Proof.Machine
end

section
/-! The statement on the secret (spec/10_state.md R16, R17, R31, spec/60_exceptions.md R133): a host access that starts no
DRBG command commutes with a change of `K` and `V`. -/

namespace Sys2Proof.Machine

/-- The state with other values in `K` and `V`. -/
def State.withSecret (s : State) (k : Quad Word) (v : Counter) : State := { s with drbg := { s.drbg with k := k, v := v } }

theorem agreeButSecret_iff {s t : State} : agreeButSecret s t ↔ ∃ k v, t = s.withSecret k v := by
  constructor
  · intro h
    exact ⟨t.drbg.k, t.drbg.v, h⟩
  · rintro ⟨k, v, rfl⟩
    rfl

/-- The answer with the next state, if there is one, changed. -/
def onNext (f : State → State) : Out → Out
  | .next t => .next (f t)
  | .fault e => .fault e
  | .refused r => .refused r

section Secret

variable {s t : State} (k : Quad Word) (v : Counter)

/-! ## The commands that do not use the DRBG -/

/-- The commands that read or write `K`, `V` or `RC`. -/
def usesDrbg : Instr → Bool
  | .instantiate => true
  | .reseed => true
  | .generate _ _ _ => true
  | .nextU64 => true
  | .zeroize => true
  | .mix => false
  | .extract _ _ => false
  | .extractU64 _ => false

theorem command_keeps_drbg {c : Cfg} {i : Instr} (hi : usesDrbg i = false) (h : command c i s = .next t) :
    t.drbg = s.drbg := by
  cases i with
  | mix => obtain rfl := mixCmd_eq_next.mp h; rfl
  | extract dv ov => obtain ⟨-, rfl⟩ | ⟨-, rfl⟩ := extractCmd_eq_next h <;> rfl
  | extractU64 dv => obtain ⟨-, rfl⟩ | ⟨-, rfl⟩ := extractU64Cmd_eq_next h <;> rfl
  | _ => cases hi

theorem command_withSecret {c : Cfg} {i : Instr} (hi : usesDrbg i = false) (h : command c i s = .next t) :
    command c i (s.withSecret k v) = .next (t.withSecret k v) := by
  cases i with
  | mix => obtain rfl := mixCmd_eq_next.mp h; rfl
  | extract dv ov =>
    obtain ⟨hbad, rfl⟩ | ⟨hgood, rfl⟩ := extractCmd_eq_next h
    · exact extractCmd_of_invalid hbad
    · exact extractCmd_of_valid hgood
  | extractU64 dv =>
    obtain ⟨hbad, rfl⟩ | ⟨hgood, rfl⟩ := extractU64Cmd_eq_next h
    · exact extractU64Cmd_of_invalid hbad
    · exact extractU64Cmd_of_valid hgood
  | _ => cases hi

/-- A word that decodes to none of the DRBG commands, illegal words among them. -/
def startsNoDrbgCommand (w : Word) : Prop := ∀ i, decodeWord w = .command i → usesDrbg i = false

theorem startsNoDrbgCommand_of_ne {w : Word}
    (h : decodeWord w ≠ .command .instantiate ∧ decodeWord w ≠ .command .reseed ∧ decodeWord w ≠ .command .nextU64 ∧
      decodeWord w ≠ .command .zeroize ∧ ∀ ov pr len, decodeWord w ≠ .command (.generate ov pr len)) :
    startsNoDrbgCommand w := by
  obtain ⟨not_instantiate, not_reseed, not_nextU64, not_zeroize, not_generate⟩ := h
  intro i hi
  cases i with
  | instantiate => exact absurd hi not_instantiate
  | reseed => exact absurd hi not_reseed
  | generate ov pr len => exact absurd hi (not_generate ov pr len)
  | nextU64 => exact absurd hi not_nextU64
  | zeroize => exact absurd hi not_zeroize
  | _ => rfl

theorem runCommand_keeps_drbg {w : Word} (hw : startsNoDrbgCommand w) (h : runCommand w s = .next t) :
    t.drbg = s.drbg := by
  obtain ⟨i, hi, hrun⟩ | ⟨e, -, hrun⟩ := runCommand_cases w s
  · rw [hrun, exec_eq_command] at h
    exact command_keeps_drbg (hw i hi) h
  · obtain rfl := illegalCommand_eq_next.mp (hrun.symm.trans h)
    rfl

theorem runCommand_withSecret {w : Word} (hw : startsNoDrbgCommand w) (s : State) :
    runCommand w (s.withSecret k v) = onNext (·.withSecret k v) (runCommand w s) := by
  unfold runCommand
  cases hd : decodeWord w with
  | command i =>
    obtain ⟨t, ht⟩ := command_goes_on cfgRef i s
    simp only [exec_eq_command, ht, command_withSecret k v (hw i hd) ht, onNext]
  | illegal e => rfl

/-! ## The host's accesses -/

/-- Two register accesses that stop alike commute if what they do at the register they reach does. -/
theorem withReg_onNext {off width : Nat} {f : State → State} {go go' : Reg → Out}
    (h : width = 8 → ∀ r, regAt off = some r → go' r = onNext f (go r)) :
    withReg off width go' = onNext f (withReg off width go) := by
  unfold withReg
  split_ifs with outside misaligned
  · rfl
  · rfl
  · have eight_bytes : width = 8 := of_not_not (not_or.mp misaligned).1
    cases hr : regAt off with
    | some r => exact h eight_bytes r hr
    | none => rfl

/-- No register shows `K` or `V` (R26, R31). -/
theorem regValue_withSecret (s : State) (r : Reg) : regValue (s.withSecret k v) r = regValue s r := by
  cases r <;> rfl

theorem regStore_withSecret (s : State) (r : Reg) (x : Word) :
    regStore (s.withSecret k v) r x = (regStore s r x).withSecret k v := by
  cases r <;> rfl

theorem bufValue_withSecret (s : State) (sp : Space) (a : Nat) : bufValue (s.withSecret k v) sp a = bufValue s sp a := by
  cases sp <;> rfl

theorem bufPut_withSecret (s : State) (sp : Space) (a : Nat) (b : Byte) :
    bufPut (s.withSecret k v) sp a b = (bufPut s sp a b).withSecret k v := by
  cases sp <;> rfl

variable {c : Cfg} {run : Word → State → Out}

/-- With no command running, a host access other than the reset event commutes with a change of the secret if the word it
writes to `CMD`, where it writes one, does. -/
theorem serve_withSecret_of_idle {a : HostAction} (hbusy : s.busy = false) (hreset : a ≠ .reset)
    (hrun : ∀ w, a = wr .cmd w → ∀ u, run w (u.withSecret k v) = onNext (·.withSecret k v) (run w u)) :
    serve c run a (s.withSecret k v) = onNext (·.withSecret k v) (serve c run a s) := by
  have hbusy' : (s.withSecret k v).busy = false := hbusy
  cases a with
  | regWrite off width x =>
    rw [serve_regWrite hbusy, serve_regWrite hbusy']
    refine withReg_onNext fun hwidth r hr => ?_
    by_cases hcmd : r = .cmd
    · subst hwidth hcmd
      obtain rfl := regAt_eq_some_iff.mp hr
      rw [if_pos rfl, if_pos rfl]
      exact hrun x rfl { s with busy := true }
    · rw [if_neg hcmd, if_neg hcmd, regStore_withSecret]
      rfl
  | regRead off width =>
    rw [serve_regRead (.inl hbusy), serve_regRead (.inl hbusy')]
    refine withReg_onNext fun _ r _ => ?_
    rw [regValue_withSecret]
    rfl
  | bufWrite sp addr b =>
    rw [serve_bufWrite hbusy, serve_bufWrite hbusy', apply_ite (onNext _), bufPut_withSecret]
    rfl
  | bufRead sp addr =>
    rw [serve_bufRead hbusy, serve_bufRead hbusy', apply_ite (onNext _), bufValue_withSecret]
    rfl
  | reset => exact absurd rfl hreset

/-- While a command runs the host is answered from `STATUS` or refused, neither of which depends on the secret. -/
theorem serve_withSecret_of_busy {a : HostAction} (hbusy : s.busy = true) (hreset : a ≠ .reset) :
    serve c run a (s.withSecret k v) = onNext (·.withSecret k v) (serve c run a s) := by
  by_cases hrd : a = rd .status
  · subst hrd
    rw [serve_rd_status, serve_rd_status]
    rfl
  · rw [serve_refused_while_busy hbusy hrd hreset, serve_refused_while_busy (s := s.withSecret k v) hbusy hrd hreset]
    rfl

theorem serve_withSecret {a : HostAction} (hreset : a ≠ .reset)
    (hrun : ∀ w, a = wr .cmd w → ∀ u, run w (u.withSecret k v) = onNext (·.withSecret k v) (run w u)) (s : State) :
    serve c run a (s.withSecret k v) = onNext (·.withSecret k v) (serve c run a s) := by
  cases hbusy : s.busy with
  | true => exact serve_withSecret_of_busy k v hbusy hreset
  | false => exact serve_withSecret_of_idle k v hbusy hreset hrun

theorem serve_keeps_drbg {a : HostAction} (hreset : a ≠ .reset)
    (hrun : ∀ w, a = wr .cmd w → ∀ u u', run w u = .next u' → u'.drbg = u.drbg) (h : serve c run a s = .next t) :
    t.drbg = s.drbg := by
  obtain ⟨off, w, rfl, hr, -, hcmd⟩ | ⟨_, _, _, -, -, -, -, rfl⟩ | ⟨_, _, -, -, rfl⟩ | ⟨_, _, _, -, -, -, rfl⟩ |
    ⟨_, _, -, -, -, rfl⟩ | ⟨hr, -⟩ := serve_eq_next h
  · obtain rfl := regAt_eq_some_iff.mp hr
    exact hrun w rfl { s with busy := true } t hcmd
  · exact regStore_drbg ..
  · rfl
  · exact bufPut_drbg ..
  · rfl
  · exact absurd hr hreset

end Secret

/-! ## The obligation -/

/-- Settles O27: the second step is the first with the secret changed, and neither changes it. -/
theorem secretHasNoReadPath : Obligations.SecretHasNoReadPath := by
  intro s t a rest hagree hscript hreset hword
  obtain ⟨k, v, rfl⟩ := agreeButSecret_iff.mp hagree
  have no_drbg : ∀ w, a = wr .cmd w → startsNoDrbgCommand w := fun w hw => startsNoDrbgCommand_of_ne (hword w hw)
  have commutes : step (s.withSecret k v) = onNext (·.withSecret k v) (step s) := by
    rw [step_of_script_cons hscript, step_of_script_cons (s := s.withSecret k v) hscript]
    exact serve_withSecret k v hreset (fun w hw => runCommand_withSecret k v (no_drbg w hw)) { s with script := rest }
  cases hstep : step s with
  | next s' =>
    rw [hstep] at commutes
    have kept : s'.drbg = s.drbg :=
      serve_keeps_drbg (s := { s with script := rest }) hreset (fun w hw _ _ => runCommand_keeps_drbg (no_drbg w hw))
        ((step_of_script_cons hscript).symm.trans hstep)
    have kept' : (s'.withSecret k v).drbg = (s.withSecret k v).drbg := by rw [State.withSecret, State.withSecret, kept]
    exact .inl ⟨s', s'.withSecret k v, rfl, commutes, agreeButSecret_iff.mpr ⟨k, v, rfl⟩, kept, kept'⟩
  | fault f =>
    rw [hstep] at commutes
    exact .inr (.inl ⟨f, rfl, commutes⟩)
  | refused r =>
    rw [hstep] at commutes
    exact .inr (.inr ⟨r, rfl, commutes⟩)

end Sys2Proof.Machine
end

section
/-! The statements on the buffers (spec/20_memory.md R36 to R38): what a host access does to them, what a command stores in
them and reads of them, and that every step keeps them in canonical form. -/

namespace Sys2Proof.Machine

/-! ## The host's accesses (R36) -/

theorem readByte_memWrite_one (s : State) (sp sp' : Space) (a a' : Nat) (b : Byte) :
    readByte (memWrite s sp a [b]) sp' a' = if sp' = sp ∧ a' = a then b else readByte s sp' a' := by
  by_cases hsp : sp' = sp
  · subst hsp
    by_cases ha : a' = a
    · subst ha
      simpa using readByte_memWrite_in s sp' (a := a') (i := 0) (b := [b]) Nat.one_pos
    · rw [if_neg (by simp [ha]), readByte_memWrite_out]
      simp only [List.length_singleton]
      omega
  · rw [if_neg (by simp [hsp]), readByte_memWrite_other _ _ _ _ hsp]

theorem bufPut_of_ne_out {sp : Space} (h : sp ≠ .out) (s : State) (a : Nat) (b : Byte) :
    bufPut s sp a b = memWrite s sp a [b] := by
  cases sp with
  | a => rfl
  | b => rfl
  | out => exact absurd rfl h

theorem readByte_bufPut (s : State) (sp sp' : Space) (a a' : Nat) (b : Byte) :
    readByte (bufPut s sp a b) sp' a' = if sp' = sp ∧ a' = a ∧ sp ≠ .out then b else readByte s sp' a' := by
  by_cases hout : sp = .out
  · subst hout
    simp [bufPut]
  · simp only [bufPut_of_ne_out hout, readByte_memWrite_one, ne_eq, hout, not_false_eq_true, and_true]

/-- A host write reaches the buffers A and B only. -/
theorem bufPut_eq (s : State) (sp : Space) (a : Nat) (b : Byte) :
    bufPut s sp a b = { s with bufA := (bufPut s sp a b).bufA, bufB := (bufPut s sp a b).bufB } := by
  cases sp <;> rfl

theorem step_bufWrite {s : State} {rest : List HostAction} {sp : Space} {a : Nat} {b : Byte} (hbusy : s.busy = false)
    (h : s.script = .bufWrite sp a b :: rest) :
    step s = if cfgRef.bufCap ≤ a then .fault (.noSuchByte sp a) else .next (bufPut { s with script := rest } sp a b) :=
  (step_of_script_cons h).trans (serve_bufWrite (s := { s with script := rest }) hbusy sp a b)

theorem step_bufRead {s : State} {rest : List HostAction} {sp : Space} {a : Nat} (hbusy : s.busy = false)
    (h : s.script = .bufRead sp a :: rest) :
    step s = if cfgRef.bufCap ≤ a then .fault (.noSuchByte sp a)
      else .next { s with script := rest, readData := (bufValue { s with script := rest } sp a).setWidth 64 } :=
  (step_of_script_cons h).trans (serve_bufRead (s := { s with script := rest }) hbusy sp a)

theorem bufCap_cfgRef : cfgRef.bufCap = 2 ^ 32 - 1 := rfl

/-! ## What a command stores (R36, R38) -/

/-- The output length of a command: as many bytes of OUT, from address 0 up, may it store at most. -/
def outLength : Instr → Nat
  | .generate _ _ len => len
  | .extract _ _ => 32
  | _ => 0

/-- `t` is `s` after a command that stored `bs` at the head of OUT: beside the registers `K`, `V`, `RC`, `LIFE`, `RES` and
`STATUS` nothing else changed, and the command is no longer running. -/
structure StoresOnly (bs : Bytes) (s t : State) : Prop where
  lenA : t.lenA = s.lenA
  lenB : t.lenB = s.lenB
  arg : t.arg = s.arg
  bufA : t.bufA = s.bufA
  bufB : t.bufB = s.bufB
  bufOut : t.bufOut = bufStoreAll s.bufOut 0 bs
  epoch : t.epoch = s.epoch
  script : t.script = s.script
  readData : t.readData = s.readData
  busy : t.busy = false

section StoresOnly

variable {bs : Bytes} {s t : State}

theorem StoresOnly.of_registers (s : State) (d : Drbg) (l : Life) (r : Quad Word) (e : ErrCode) :
    StoresOnly [] s { s with drbg := d, life := l, res := r, err := e, busy := false } :=
  ⟨rfl, rfl, rfl, rfl, rfl, rfl, rfl, rfl, rfl, rfl⟩

theorem StoresOnly.of_stored (s : State) (d : Drbg) (bs : Bytes) (e : ErrCode) :
    StoresOnly bs s { memWrite { s with drbg := d } .out 0 bs with err := e, busy := false } :=
  ⟨rfl, rfl, rfl, rfl, rfl, rfl, rfl, rfl, rfl, rfl⟩

theorem StoresOnly.readByte_a (h : StoresOnly bs s t) (a : Nat) : readByte t .a a = readByte s .a a :=
  readByte_congr (sp := .a) h.bufA h.epoch a

theorem StoresOnly.readByte_b (h : StoresOnly bs s t) (a : Nat) : readByte t .b a = readByte s .b a :=
  readByte_congr (sp := .b) h.bufB h.epoch a

theorem StoresOnly.readByte_out (h : StoresOnly bs s t) {a : Nat} (ha : bs.length ≤ a) :
    readByte t .out a = readByte s .out a := by
  have stored : readByte t .out a = readByte (memWrite s .out 0 bs) .out a :=
    readByte_congr (t := memWrite s .out 0 bs) (sp := .out) h.bufOut h.epoch a
  rw [stored, readByte_memWrite_out _ _ (.inr (by omega))]

theorem StoresOnly.wf {cap : Nat} (h : StoresOnly bs s t) (hcap : bs.length ≤ cap)
    (hs : ∀ sp, Memory.wf cap (s.buf sp) = true) (sp : Space) : Memory.wf cap (t.buf sp) = true := by
  cases sp with
  | a => exact (congrArg (Memory.wf cap) h.bufA).trans (hs .a)
  | b => exact (congrArg (Memory.wf cap) h.bufB).trans (hs .b)
  | out => exact (congrArg (Memory.wf cap) h.bufOut).trans (wf_bufStoreAll (hs .out) (by omega))

end StoresOnly

section Command

variable {c : Cfg} {i : Instr} {s t : State}

/-- Every command stores at most its output length, and no more than the capacity unless it is the 32 bytes of a seed
(log entry 18). -/
theorem command_storesOnly (h : command c i s = .next t) :
    ∃ bs, bs.length ≤ outLength i ∧ bs.length ≤ max 32 c.bufCap ∧ StoresOnly bs s t := by
  have nothing (d : Drbg) (l : Life) (r : Quad Word) (e : ErrCode) :
      ∃ bs, bs.length ≤ outLength i ∧ bs.length ≤ max 32 c.bufCap ∧
        StoresOnly bs s { s with drbg := d, life := l, res := r, err := e, busy := false } :=
    ⟨[], Nat.zero_le _, Nat.zero_le _, .of_registers s d l r e⟩
  cases i with
  | instantiate => obtain rfl := instantiateCmd_eq_next.mp h; exact nothing ..
  | reseed => obtain ⟨-, rfl⟩ | ⟨-, rfl⟩ := reseedCmd_eq_next h <;> exact nothing ..
  | generate ov pr len =>
    obtain ⟨-, rfl⟩ | ⟨⟨-, hlen, -⟩, rfl⟩ := generateCmd_eq_next h
    · exact nothing ..
    · have length_eq := stream_length c (preUpdate c s).k (preUpdate c s).v len
      exact ⟨_, length_eq.le, by omega, .of_stored ..⟩
  | nextU64 => obtain rfl := nextU64Cmd_eq_next.mp h; exact nothing ..
  | zeroize => obtain rfl := zeroizeCmd_eq_next.mp h; exact nothing ..
  | mix => obtain rfl := mixCmd_eq_next.mp h; exact nothing ..
  | extract dv ov =>
    obtain ⟨-, rfl⟩ | ⟨-, rfl⟩ := extractCmd_eq_next h
    · exact nothing ..
    · have length_eq := Vector.length_toList (xs := extractSeed c (inputA s))
      exact ⟨_, length_eq.le, by omega, .of_stored s s.drbg _ .ok⟩
  | extractU64 dv => obtain ⟨-, rfl⟩ | ⟨-, rfl⟩ := extractU64Cmd_eq_next h <;> exact nothing ..

theorem command_err (h : command c i s = .next t) : t.err = .ok ∨ t.err = .invalidArgument := by
  cases i with
  | instantiate => obtain rfl := instantiateCmd_eq_next.mp h; exact .inl rfl
  | reseed => obtain ⟨-, rfl⟩ | ⟨-, rfl⟩ := reseedCmd_eq_next h; exacts [.inr rfl, .inl rfl]
  | generate ov pr len => obtain ⟨-, rfl⟩ | ⟨-, rfl⟩ := generateCmd_eq_next h; exacts [.inr rfl, .inl rfl]
  | nextU64 => obtain rfl := nextU64Cmd_eq_next.mp h; exact .inl rfl
  | zeroize => obtain rfl := zeroizeCmd_eq_next.mp h; exact .inl rfl
  | mix => obtain rfl := mixCmd_eq_next.mp h; exact .inl rfl
  | extract dv ov => obtain ⟨-, rfl⟩ | ⟨-, rfl⟩ := extractCmd_eq_next h; exacts [.inr rfl, .inl rfl]
  | extractU64 dv => obtain ⟨-, rfl⟩ | ⟨-, rfl⟩ := extractU64Cmd_eq_next h; exacts [.inr rfl, .inl rfl]

/-- Of `RES` a command sets nothing, `RES[0]`, or all four words (R38). -/
theorem command_res (h : command c i s = .next t) :
    match i with
    | .nextU64 => t.res = { s.res with q0 := t.res.q0 }
    | .mix => t.res = { s.res with q0 := t.res.q0 }
    | .extractU64 _ => True
    | _ => t.res = s.res := by
  cases i with
  | instantiate => obtain rfl := instantiateCmd_eq_next.mp h; rfl
  | reseed => obtain ⟨-, rfl⟩ | ⟨-, rfl⟩ := reseedCmd_eq_next h <;> rfl
  | generate ov pr len => obtain ⟨-, rfl⟩ | ⟨-, rfl⟩ := generateCmd_eq_next h <;> rfl
  | nextU64 => obtain rfl := nextU64Cmd_eq_next.mp h; rfl
  | zeroize => obtain rfl := zeroizeCmd_eq_next.mp h; rfl
  | mix => obtain rfl := mixCmd_eq_next.mp h; rfl
  | extract dv ov => obtain ⟨-, rfl⟩ | ⟨-, rfl⟩ := extractCmd_eq_next h <;> rfl
  | extractU64 dv => trivial

end Command

/-! ## What a command reads of A and B (R36) -/

section Inputs

variable {c : Cfg} {s s' : State}

/-- The state with other buffers A and B. -/
def State.withInputs (s : State) (a b : Buffer) : State := { s with bufA := a, bufB := b }

theorem inputA_congr (hlen : s'.lenA = s.lenA) (h : ∀ x, x < s.lenA.toNat → readByte s' .a x = readByte s .a x) :
    inputA s' = inputA s := by
  rw [inputA, inputA, hlen]
  exact memRead_congr fun x hx => by simpa using h x hx

theorem inputB_congr (hlen : s'.lenB = s.lenB) (h : ∀ x, x < s.lenB.toNat → readByte s' .b x = readByte s .b x) :
    inputB s' = inputB s := by
  rw [inputB, inputB, hlen]
  exact memRead_congr fun x hx => by simpa using h x hx

theorem reseedDrbg_congr (hd : s'.drbg = s.drbg) (hA : inputA s' = inputA s) (hB : inputB s' = inputB s) :
    reseedDrbg c s' = reseedDrbg c s := by
  rw [reseedDrbg, reseedDrbg, hd, hA, hB]

theorem preUpdate_congr (hd : s'.drbg = s.drbg) (hlen : s'.lenB = s.lenB) (hB : inputB s' = inputB s) :
    preUpdate c s' = preUpdate c s := by
  rw [preUpdate, preUpdate, hd, hlen, hB]

/-- The buffers A and B come into a command only as the strings `A[0..LEN_A)` and `B[0..LEN_B)`. -/
theorem command_withInputs {i : Instr} {t : State} {a b : Buffer} (hA : inputA (s.withInputs a b) = inputA s)
    (hB : inputB (s.withInputs a b) = inputB s) (h : command c i s = .next t) :
    command c i (s.withInputs a b) = .next (t.withInputs a b) := by
  cases i with
  | instantiate => obtain rfl := instantiateCmd_eq_next.mp h; rfl
  | reseed =>
    obtain ⟨hbad, rfl⟩ | ⟨hgood, rfl⟩ := reseedCmd_eq_next h
    · exact reseedCmd_of_overCap hbad
    · have same_drbg : reseedDrbg c (s.withInputs a b) = reseedDrbg c s := reseedDrbg_congr rfl hA hB
      refine (reseedCmd_of_fits (s := s.withInputs a b) hgood).trans ?_
      rw [same_drbg]
      rfl
  | generate ov pr len =>
    obtain ⟨hbad, rfl⟩ | ⟨hgood, rfl⟩ := generateCmd_eq_next h
    · exact generateCmd_of_invalid hbad
    · have same_drbg : preUpdate c (s.withInputs a b) = preUpdate c s := preUpdate_congr rfl rfl hB
      refine (generateCmd_of_valid (s := s.withInputs a b) hgood).trans ?_
      rw [same_drbg]
      rfl
  | nextU64 => obtain rfl := nextU64Cmd_eq_next.mp h; rfl
  | zeroize => obtain rfl := zeroizeCmd_eq_next.mp h; rfl
  | mix => obtain rfl := mixCmd_eq_next.mp h; rfl
  | extract dv ov =>
    obtain ⟨hbad, rfl⟩ | ⟨hgood, rfl⟩ := extractCmd_eq_next h
    · exact extractCmd_of_invalid hbad
    · refine (extractCmd_of_valid (s := s.withInputs a b) hgood).trans ?_
      rw [hA]
      rfl
  | extractU64 dv =>
    obtain ⟨hbad, rfl⟩ | ⟨hgood, rfl⟩ := extractU64Cmd_eq_next h
    · exact extractU64Cmd_of_invalid hbad
    · refine (extractU64Cmd_of_valid (s := s.withInputs a b) hgood).trans ?_
      rw [hA]
      rfl

end Inputs

/-! ## Every step keeps a sound state -/

section Sound

variable {s t : State}

theorem buf_congr (hA : t.bufA = s.bufA) (hB : t.bufB = s.bufB) (hOut : t.bufOut = s.bufOut) : t.buf = s.buf := by
  funext sp
  cases sp with
  | a => exact hA
  | b => exact hB
  | out => exact hOut

/-- Soundness depends on the buffers, `BUSY` and `ERR` alone. -/
theorem sound_congr (hbuf : t.buf = s.buf) (hbusy : t.busy = s.busy) (herr : t.err = s.err) (hs : s.sound = true) :
    t.sound = true := by
  rw [State.sound_iff] at hs ⊢
  rwa [hbuf, hbusy, herr]

/-- A word written to `CMD` ends with `BUSY` clear, so it needs of the state before only that its buffers are canonical. -/
theorem runCommand_sound {w : Word} (hs : ∀ sp, Memory.wf cfgRef.bufCap (s.buf sp) = true)
    (h : runCommand w s = .next t) : t.sound = true := by
  rw [State.sound_iff]
  obtain ⟨i, -, hrun⟩ | ⟨e, -, hrun⟩ := runCommand_cases w s
  · rw [hrun, exec_eq_command] at h
    obtain ⟨bs, -, hfits, stores⟩ := command_storesOnly h
    refine ⟨stores.wf hfits hs, stores.busy, ?_⟩
    rcases command_err h with herr | herr <;> simp [herr]
  · obtain rfl := illegalCommand_eq_next.mp (hrun.symm.trans h)
    have stores := StoresOnly.of_registers s s.drbg s.life s.res .illegalCommand
    exact ⟨stores.wf (Nat.zero_le _) hs, stores.busy, by simp⟩

theorem wf_bufPut {cap a : Nat} (hs : ∀ sp, Memory.wf cap (s.buf sp) = true) (ha : a < cap) (sp : Space) (b : Byte)
    (sp' : Space) : Memory.wf cap ((bufPut s sp a b).buf sp') = true := by
  by_cases hout : sp = .out
  · subst hout
    exact hs sp'
  · rw [bufPut_of_ne_out hout]
    exact wf_memWrite hs (by simpa using ha) sp'

theorem serve_sound {a : HostAction} (hs : s.sound = true) (h : serve cfgRef runCommand a s = .next t) :
    t.sound = true := by
  obtain ⟨hwf, hbusy, herr⟩ := (State.sound_iff s).mp hs
  obtain ⟨_, w, -, -, -, hrun⟩ | ⟨_, v, r, -, -, -, -, rfl⟩ | ⟨_, r, -, -, rfl⟩ | ⟨sp, addr, b, -, haddr, -, rfl⟩ |
    ⟨sp, addr, -, -, -, rfl⟩ | ⟨-, rfl⟩ := serve_eq_next h
  · have same_buffers : { s with busy := true }.buf = s.buf := buf_congr rfl rfl rfl
    exact runCommand_sound (same_buffers ▸ hwf) hrun
  · have same_buffers : (regStore s r v).buf = s.buf :=
      buf_congr (regStore_bufA ..) (regStore_bufB ..) (regStore_bufOut ..)
    exact sound_congr same_buffers (regStore_busy ..) (regStore_err ..) hs
  · exact sound_congr (buf_congr rfl rfl rfl) rfl rfl hs
  · exact (State.sound_iff _).mpr
      ⟨wf_bufPut hwf haddr sp b, (bufPut_busy ..).trans hbusy, ne_of_eq_of_ne (bufPut_err ..) herr⟩
  · exact sound_congr (buf_congr rfl rfl rfl) rfl rfl hs
  · exact sound_congr (buf_congr rfl rfl rfl) rfl rfl resetIsSound

end Sound

/-! ## The obligations -/

/-- Settles O17: an idle step changes nothing, and every action the host's script can hold leaves a sound state. -/
theorem stepKeepsSoundState : Obligations.StepKeepsSoundState := by
  intro s t hs h
  obtain ⟨-, rfl⟩ | ⟨a, rest, -, hserve⟩ := step_eq_next h
  · exact hs
  · have sound_before : { s with script := rest }.sound = true := sound_congr (buf_congr rfl rfl rfl) rfl rfl hs
    exact serve_sound sound_before hserve

/-- Settles O13: the write goes on with `bufPut` and the read with `bufValue`, below the capacity. -/
theorem hostBufferAccesses : Obligations.HostBufferAccesses := by
  intro s rest sp addr b hbusy
  refine ⟨fun hlt hscript => ?write, fun hlt hscript => ?read, fun hge hscript => ?beyond⟩
  case write =>
    refine ⟨bufPut { s with script := rest } sp addr b, ?_, bufPut_eq _ sp addr b, fun sp' a => ?_⟩
    · rw [step_bufWrite hbusy hscript, if_neg (by rw [bufCap_cfgRef]; omega)]
    · rw [readByte_bufPut]
      cases sp' <;> rfl
  case read =>
    rw [step_bufRead hbusy hscript, if_neg (by rw [bufCap_cfgRef]; omega)]
    cases sp with
    | a => rfl
    | b => rfl
    | out => rw [BitVec.ofNat_toNat]; rfl
  case beyond =>
    rcases hscript with hwrite | hread
    · rw [step_bufWrite hbusy hwrite, if_pos (by rw [bufCap_cfgRef]; omega)]
    · rw [step_bufRead hbusy hread, if_pos (by rw [bufCap_cfgRef]; omega)]

/-- Settles O25: what no command touches comes from `StoresOnly`, the registers from their own lemmas. -/
theorem commandWriteFrames : Obligations.CommandWriteFrames := by
  intro i s t h
  rw [exec_eq_command] at h
  obtain ⟨bs, hlen, -, stores⟩ := command_storesOnly h
  have out_kept : ∀ a, outLength i ≤ a → readByte t .out a = readByte s .out a :=
    fun a ha => stores.readByte_out (hlen.trans ha)
  have life_kept := command_life h
  have res_kept := command_res h
  have drbg_kept (hi : usesDrbg i = false) : t.drbg = s.drbg := command_keeps_drbg hi h
  refine ⟨stores.lenA, stores.lenB, stores.arg, stores.bufA, stores.bufB, stores.epoch, stores.script, stores.readData,
    stores.busy, stores.readByte_a, stores.readByte_b, ?_⟩
  cases i with
  | instantiate => exact ⟨res_kept, fun a => out_kept a a.zero_le⟩
  | reseed => exact ⟨res_kept, life_kept, fun a => out_kept a a.zero_le⟩
  | generate ov pr len => exact ⟨res_kept, life_kept, out_kept⟩
  | nextU64 => exact ⟨res_kept, life_kept, fun a => out_kept a a.zero_le⟩
  | zeroize => exact ⟨res_kept, fun a => out_kept a a.zero_le⟩
  | mix => exact ⟨res_kept, drbg_kept rfl, life_kept, fun a => out_kept a a.zero_le⟩
  | extract dv ov => exact ⟨res_kept, drbg_kept rfl, life_kept, out_kept⟩
  | extractU64 dv => exact ⟨drbg_kept rfl, life_kept, fun a => out_kept a a.zero_le⟩

/-- Settles O26: the two input strings are the same, and a command reads nothing else of A and B. -/
theorem unreadInputBytesNeverInfluence : Obligations.UnreadInputBytesNeverInfluence := by
  intro i s t a b hA hB h
  rw [exec_eq_command] at h ⊢
  exact command_withInputs (inputA_congr (s' := s.withInputs a b) rfl hA) (inputB_congr (s' := s.withInputs a b) rfl hB) h

end Sys2Proof.Machine
end

section
/-! The statement on the pool's length (spec/20_memory.md R39, spec/43_seed_engine.md R103 to R105). -/

namespace Sys2Proof.Machine

/-! ## The number of samples (R104) -/

theorem sampleCount_of_short {n : Nat} (h : n ≤ 255) : sampleCount n = n := by
  have stride_one : strideOf n = 1 := by
    rw [strideOf, sampleDiv]
    omega
  rw [sampleCount, stride_one, Nat.div_one, Nat.add_sub_cancel]

/-- With stride `q = n / 128 ≥ 2`, `n` lies from `128·q` to `128·q + 127`, and `64·q` is at least 128. -/
theorem sampleCount_bounds_of_long {n : Nat} (h : 256 ≤ n) : 128 ≤ sampleCount n ∧ sampleCount n ≤ 192 := by
  have stride_eq : strideOf n = n / 128 := by
    rw [strideOf, sampleDiv]
    omega
  have two_le : 2 ≤ n / 128 := by omega
  have stride_pos : 0 < n / 128 := by omega
  rw [sampleCount, stride_eq]
  constructor
  · rw [Nat.le_div_iff_mul_le stride_pos]
    omega
  · rw [← Nat.lt_succ_iff, Nat.div_lt_iff_lt_mul stride_pos]
    omega

/-! ## The parts of the pool (R103 to R105) -/

theorem emitToken_length (c : Cfg) (t : Token) :
    (emitToken c t).length = if isFinite64 (c.parseDec t.text) then 16 else 0 := by
  rw [emitToken, apply_ite List.length]
  simp

theorem flatMap_emitToken_length (c : Cfg) (ts : List Token) :
    (ts.flatMap (emitToken c)).length = 16 * (ts.filter fun t => isFinite64 (c.parseDec t.text)).length := by
  induction ts with
  | nil => rfl
  | cons t rest ih =>
    rw [List.flatMap_cons, List.length_append, ih, emitToken_length, List.filter_cons]
    split_ifs
    · rw [List.length_cons]
      omega
    · omega

theorem sampleAt_length (d : Bytes) (off : Nat) : (sampleAt d off).length = 8 := by simp [sampleAt]

theorem fingerprint_length (d : Bytes) : (fingerprint d).length = 28 + 8 * sampleCount d.length := by
  simp only [fingerprint, List.flatMap_cons, List.flatMap_nil, List.length_append, List.length_nil, leBytes_length,
    le32_length, List.length_flatMap, sampleAt_length, List.map_const', List.length_range, List.sum_replicate, smul_eq_mul]
  omega

theorem assemble_length (num st : Bytes) (hd : Digest) : (assemble num st hd).length = 62 + num.length + st.length := by
  have tags : tagNumeric.length = 8 ∧ tagStructure.length = 10 ∧ tagRawHash.length = 8 := ⟨rfl, rfl, rfl⟩
  simp only [assemble, List.length_append, le32_length, Vector.length_toList]
  omega

/-! ## The obligation -/

/-- Settles O56: the lengths of the pool's parts add up, and the sample count is bounded on each side of 256. -/
theorem poolLengthFormula : Obligations.PoolLengthFormula := by
  intro c d
  refine ⟨?_, sampleCount_of_short, sampleCount_bounds_of_long⟩
  rw [poolOf, assemble_length, numericScan, flatMap_emitToken_length, fingerprint_length]
  omega

end Sys2Proof.Machine
end

section
/-! The statements on the command word (spec/30_encoding.md R50 to R54). A row that matches a word fixes its opcode, and no
two rows share an opcode: so the one matching row decides what the decoder answers. The mask of a row keeps every bit
outside the fields of its command: so the fields and the match word together give the word back. -/

namespace Sys2Proof

/-! ## The rows of the opcode table (R52, R53) -/

section Rows

variable {r r' : OpcodeRow} {w : Word}

theorem OpcodeRow.hits_iff : r.hits w = true ↔ w &&& r.mask = r.code := beq_iff_eq

/-- Every row matches on the whole opcode field. -/
theorem opcField_mask : ∀ r ∈ opcodeRows, opcField r.mask = BitVec.allOnes 8 := by decide

theorem row_eq_of_opcField_eq : ∀ r ∈ opcodeRows, ∀ r' ∈ opcodeRows, opcField r.code = opcField r'.code → r = r' := by
  decide

theorem opcField_of_hits (hr : r ∈ opcodeRows) (h : r.hits w = true) : opcField w = opcField r.code := by
  have field_of_and : opcField (w &&& r.mask) = opcField w &&& opcField r.mask := BitVec.extractLsb'_and
  rw [opcField_mask r hr, BitVec.and_allOnes] at field_of_and
  rw [← field_of_and, OpcodeRow.hits_iff.mp h]

theorem rows_disjoint (hr : r ∈ opcodeRows) (hr' : r' ∈ opcodeRows) (h : r.hits w = true) (h' : r'.hits w = true) :
    r = r' :=
  row_eq_of_opcField_eq r hr r' hr' ((opcField_of_hits hr h).symm.trans (opcField_of_hits hr' h'))

/-- Once a row matches a word, the opcodes alone tell which rows match it. -/
theorem hits_eq_opcField_beq (hr : r ∈ opcodeRows) (hr' : r' ∈ opcodeRows) (h : r.hits w = true) :
    r'.hits w = (opcField r'.code == opcField r.code) := by
  rw [Bool.eq_iff_iff, beq_iff_eq]
  constructor
  · intro h'
    rw [rows_disjoint hr hr' h h']
  · intro same_opcode
    rwa [row_eq_of_opcField_eq r' hr' r hr same_opcode]

theorem Instr.row_mem (i : Instr) : i.row ∈ opcodeRows := by cases i <;> simp [Instr.row, opcodeRows]

theorem exists_row_eq (hr : r ∈ opcodeRows) : ∃ i : Instr, i.row = r := by
  simp only [opcodeRows, List.mem_cons, List.not_mem_nil, or_false] at hr
  rcases hr with rfl | rfl | rfl | rfl | rfl | rfl | rfl | rfl
  exacts [⟨.instantiate, rfl⟩, ⟨.reseed, rfl⟩, ⟨.generate false false 0, rfl⟩, ⟨.nextU64, rfl⟩, ⟨.zeroize, rfl⟩,
    ⟨.mix, rfl⟩, ⟨.extract false false, rfl⟩, ⟨.extractU64 false, rfl⟩]

end Rows

/-! ## What the decoder answers (R52) -/

/-- The command with the same row whose fields are those of the word. -/
def Instr.readFields (w : Word) : Instr → Instr
  | .generate _ _ _ => .generate (ovField w) (prField w) (lenField w)
  | .extract _ _ => .extract (dvField w) (ovField w)
  | .extractU64 _ => .extractU64 (dvField w)
  | i => i

@[simp] theorem Instr.row_readFields (w : Word) (i : Instr) : (i.readFields w).row = i.row := by cases i <;> rfl

@[simp] theorem Instr.readFields_readFields (w : Word) (i : Instr) : (i.readFields w).readFields w = i.readFields w := by
  cases i <;> rfl

theorem lenField_lt (w : Word) : lenField w < 2 ^ 32 := (w.extractLsb' 0 32).isLt

theorem lenField_eq_mod (w : Word) : lenField w = w.toNat % 2 ^ 32 := by
  rw [lenField, BitVec.extractLsb'_toNat, Nat.shiftRight_zero]

theorem Instr.wellFormed_readFields (w : Word) (i : Instr) : (i.readFields w).wellFormed = true := by
  cases i with
  | generate => exact decide_eq_true (lenField_lt w)
  | _ => rfl

/-- A matching row decides: the tests of the other rows compare their opcodes with that row's, and fail. -/
theorem decodeWord_of_hits {w : Word} (i : Instr) (h : i.row.hits w = true) :
    decodeWord w = .command (i.readFields w) := by
  have hits_eq : ∀ r ∈ opcodeRows, r.hits w = (opcField r.code == opcField i.row.code) :=
    fun _ hr => hits_eq_opcField_beq i.row_mem hr h
  simp only [opcodeRows, List.forall_mem_cons] at hits_eq
  simp only [decodeWord, hits_eq]
  cases i <;> simp +decide only [Instr.row, Instr.readFields, if_true, if_false]

theorem decodeWord_of_no_hit {w : Word} (h : ∀ r ∈ opcodeRows, r.hits w = false) :
    decodeWord w = .illegal (rejection w) := by
  simp only [opcodeRows, List.forall_mem_cons] at h
  simp [decodeWord, h]

/-- A word decodes to the commands whose row it matches and whose fields are its own, and to no other. -/
theorem decodeWord_eq_command_iff {w : Word} {i : Instr} :
    decodeWord w = .command i ↔ i.row.hits w = true ∧ i.readFields w = i := by
  constructor
  · intro h
    by_cases some_hit : ∃ r ∈ opcodeRows, r.hits w = true
    · obtain ⟨r, hr, hits⟩ := some_hit
      obtain ⟨j, rfl⟩ := exists_row_eq hr
      have decoded := decodeWord_of_hits j hits
      obtain rfl : i = j.readFields w := Decoded.command.inj (h.symm.trans decoded)
      exact ⟨by rwa [Instr.row_readFields], Instr.readFields_readFields w j⟩
    · have illegal := decodeWord_of_no_hit (w := w) (by simpa using some_hit)
      exact absurd (h.symm.trans illegal) Decoded.noConfusion
  · rintro ⟨hits, fields⟩
    rw [decodeWord_of_hits i hits, fields]

/-! ## The fields of an encoding (R50) -/

theorem Instr.encode_hits_row {i : Instr} (h : i.wellFormed = true) : i.row.hits (encode i) = true := by
  cases i with
  | instantiate => exact Laws.EncodingMatchesRow.instantiate h
  | reseed => exact Laws.EncodingMatchesRow.reseed h
  | generate ov pr len => exact Laws.EncodingMatchesRow.generate ov pr len h
  | nextU64 => exact Laws.EncodingMatchesRow.nextU64 h
  | zeroize => exact Laws.EncodingMatchesRow.zeroize h
  | mix => exact Laws.EncodingMatchesRow.mix h
  | extract dv ov => exact Laws.EncodingMatchesRow.extract dv ov h
  | extractU64 dv => exact Laws.EncodingMatchesRow.extractU64 dv h

/-- The bits of a word above its 32-bit length are those of its other fields. -/
theorem getLsbD_or_ofNat_of_lt {x : Word} {len n : Nat} (hlen : len < 2 ^ 32) (hn : 32 ≤ n) :
    (x ||| BitVec.ofNat 64 len).getLsbD n = x.getLsbD n := by
  have high_bit : len.testBit n = false :=
    Nat.testBit_lt_two_pow (hlen.trans_le (Nat.pow_le_pow_right (by decide) hn))
  rw [BitVec.getLsbD_or, BitVec.getLsbD_ofNat, high_bit, Bool.and_false, Bool.or_false]

theorem lenField_or_ofNat {x : Word} {len : Nat} (hx : x.extractLsb' 0 32 = 0#32) (hlen : len < 2 ^ 32) :
    lenField (x ||| BitVec.ofNat 64 len) = len := by
  rw [lenField, BitVec.extractLsb'_or, hx, BitVec.zero_or, BitVec.extractLsb'_toNat, BitVec.toNat_ofNat]
  omega

/-- The bits of GENERATE's word above its length. -/
def generateFlags (ov pr : Bool) : Word := rowGenerate.code ||| bitField pr 48 ||| bitField ov 49

theorem encode_generate (ov pr : Bool) (len : Nat) :
    encode (.generate ov pr len) = generateFlags ov pr ||| BitVec.ofNat 64 len := rfl

theorem generateFlags_fields (ov pr : Bool) :
    ovField (generateFlags ov pr) = ov ∧ prField (generateFlags ov pr) = pr ∧
      (generateFlags ov pr).extractLsb' 0 32 = 0#32 := by
  revert ov pr
  decide

theorem Instr.readFields_encode {i : Instr} (h : i.wellFormed = true) : i.readFields (encode i) = i := by
  cases i with
  | generate ov pr len =>
    have hlen : len < 2 ^ 32 := of_decide_eq_true h
    obtain ⟨ov_flag, pr_flag, low_bits⟩ := generateFlags_fields ov pr
    have ov_read : ovField (generateFlags ov pr ||| BitVec.ofNat 64 len) = ov :=
      (getLsbD_or_ofNat_of_lt hlen (by decide)).trans ov_flag
    have pr_read : prField (generateFlags ov pr ||| BitVec.ofNat 64 len) = pr :=
      (getLsbD_or_ofNat_of_lt hlen (by decide)).trans pr_flag
    rw [encode_generate, Instr.readFields, ov_read, pr_read, lenField_or_ofNat low_bits hlen]
  | extract dv ov => revert dv ov; decide
  | extractU64 dv => revert dv; decide
  | _ => rfl

/-! ## The word from its fields (R50, R52) -/

/-- A single-bit field of a word, in its place. -/
theorem bitField_getLsbD (w : Word) (n : Nat) : bitField (w.getLsbD n) n = w &&& BitVec.twoPow 64 n :=
  (BitVec.and_twoPow w n).symm

/-- The length field of a word, in its place. -/
theorem ofNat_lenField (w : Word) : BitVec.ofNat 64 (lenField w) = w &&& 0x00000000FFFFFFFF#64 := by
  apply BitVec.eq_of_toNat_eq
  have mask_value : (0x00000000FFFFFFFF#64).toNat = 2 ^ 32 - 1 := rfl
  rw [BitVec.toNat_and, mask_value, Nat.and_two_pow_sub_one_eq_mod, ← lenField_eq_mod, BitVec.toNat_ofNat,
    Nat.mod_eq_of_lt ((lenField_lt w).trans (by decide))]

/-- A matched word is the row's match word with the word's own bits in the free positions. -/
theorem code_or_free_bits {r : OpcodeRow} {w : Word} (h : r.hits w = true) : r.code ||| (w &&& ~~~r.mask) = w := by
  rw [← OpcodeRow.hits_iff.mp h, ← BitVec.and_or_distrib_left, BitVec.or_not_self, BitVec.and_allOnes]

/-- The free positions of a row are the fields of its command, so the fields with the match word give the word back. -/
theorem Instr.encode_readFields {w : Word} {i : Instr} (h : i.row.hits w = true) : encode (i.readFields w) = w := by
  have whole := code_or_free_bits h
  cases i with
  | generate =>
    have free_bits : ~~~rowGenerate.mask = BitVec.twoPow 64 48 ||| BitVec.twoPow 64 49 ||| 0x00000000FFFFFFFF#64 := by decide
    rw [Instr.row, free_bits, BitVec.and_or_distrib_left, BitVec.and_or_distrib_left, ← bitField_getLsbD, ← bitField_getLsbD,
      ← ofNat_lenField, ← BitVec.or_assoc, ← BitVec.or_assoc] at whole
    exact whole
  | extract =>
    have free_bits : ~~~rowExtract.mask = BitVec.twoPow 64 50 ||| BitVec.twoPow 64 49 := by decide
    rw [Instr.row, free_bits, BitVec.and_or_distrib_left, ← bitField_getLsbD, ← bitField_getLsbD, ← BitVec.or_assoc] at whole
    exact whole
  | extractU64 =>
    have free_bits : ~~~rowExtractU64.mask = BitVec.twoPow 64 50 := by decide
    rw [Instr.row, free_bits, ← bitField_getLsbD] at whole
    exact whole
  | _ => exact (OpcodeRow.hits_iff.mp h).symm.trans BitVec.and_allOnes

/-! ## The obligations -/

/-- Settles O1: the encoding matches the command's row, and its fields are the command's. -/
theorem decodeEncodeRoundTrip : Obligations.DecodeEncodeRoundTrip := fun _ h =>
  decodeWord_eq_command_iff.mpr ⟨Instr.encode_hits_row h, Instr.readFields_encode h⟩

/-- Settles O2: the word matches the row of what it decodes to, and its fields with the match word give it back. -/
theorem encodeDecodeRoundTrip : Obligations.EncodeDecodeRoundTrip := by
  intro w i h
  obtain ⟨hits, fields⟩ := decodeWord_eq_command_iff.mp h
  rw [← fields]
  exact ⟨Instr.encode_readFields hits, Instr.wellFormed_readFields w i⟩

/-- Settles O3: at most one row matches a word, and it decides the command; the fields are the word's. -/
theorem decoderFollowsOpcodeTable : Obligations.DecoderFollowsOpcodeTable := by
  intro w
  refine ⟨fun r hr r' hr' h h' => ?disjoint, fun r hr h => ?selected, fun h => ?illegal⟩
  case disjoint => exact rows_disjoint hr hr' (OpcodeRow.hits_iff.mpr h) (OpcodeRow.hits_iff.mpr h')
  case selected =>
    obtain ⟨i, rfl⟩ := exists_row_eq hr
    refine ⟨i.readFields w, decodeWord_of_hits i (OpcodeRow.hits_iff.mpr h), Instr.row_readFields w i, ?_⟩
    cases i with
    | generate => exact ⟨rfl, rfl, lenField_eq_mod w⟩
    | extract => exact ⟨rfl, rfl⟩
    | extractU64 => exact rfl
    | _ => trivial
  case illegal =>
    exact ⟨rejection w, decodeWord_of_no_hit fun r hr => Bool.eq_false_iff.mpr (mt OpcodeRow.hits_iff.mp (h r hr))⟩

/-- Settles O4: each sample word of a command is its encoding, and the two illegal words match no row. -/
theorem opcodeTableAndSampleWords : Obligations.OpcodeTableAndSampleWords :=
  ⟨rfl, decodeEncodeRoundTrip .instantiate rfl, decodeEncodeRoundTrip .reseed rfl,
    decodeEncodeRoundTrip (.generate true false 16) rfl, decodeEncodeRoundTrip .nextU64 rfl,
    decodeEncodeRoundTrip .zeroize rfl, decodeEncodeRoundTrip .mix rfl, decodeEncodeRoundTrip (.extract true false) rfl,
    decodeEncodeRoundTrip (.extractU64 true) rfl, decodeWord_of_no_hit (by decide), decodeWord_of_no_hit (by decide)⟩

end Sys2Proof
end

section
/-! The statements on runs of the host's script: a legal script never stops the machine (spec/30_encoding.md R52,
spec/60_exceptions.md R132, R139), and the load forms (spec/30_encoding.md R57). -/

namespace Sys2Proof.Machine

/-! ## Runs -/

theorem step_of_script_nil {s : State} (h : s.script = []) : step s = .next s := by rw [step, h]

theorem run_succ_of_step {s t : State} (h : step s = .next t) (n : Nat) :
    Host.Core.run Sys2Proof.core (n + 1) s = Host.Core.run Sys2Proof.core n t := by
  have core_steps : Sys2Proof.core.step s = .next t := h
  simp only [Host.Core.run, core_steps]

/-- A run that goes on went on at its first step. -/
theorem step_next_of_run_succ {s t : State} {n : Nat} (h : Host.Core.run Sys2Proof.core (n + 1) s = .next t) :
    ∃ s', step s = .next s' ∧ Host.Core.run Sys2Proof.core n s' = .next t := by
  cases hstep : step s with
  | next s' => exact ⟨s', rfl, run_succ_of_step hstep n ▸ h⟩
  | fault r =>
    have core_stops : Sys2Proof.core.step s = .fault r := hstep
    simp only [Host.Core.run, core_stops, reduceCtorEq] at h
  | refused r =>
    have core_stops : Sys2Proof.core.step s = .refused r := hstep
    simp only [Host.Core.run, core_stops, reduceCtorEq] at h

/-- A run in two parts, of which the first goes on. -/
theorem run_add_of_next {s t : State} {n : Nat} (h : Host.Core.run Sys2Proof.core n s = .next t) (m : Nat) :
    Host.Core.run Sys2Proof.core (n + m) s = Host.Core.run Sys2Proof.core m t := by
  induction n generalizing s with
  | zero =>
    cases h
    rw [Nat.zero_add]
  | succ n ih =>
    obtain ⟨s', hstep, hrun⟩ := step_next_of_run_succ h
    rw [Nat.succ_add, run_succ_of_step hstep, ih hrun]

/-- A predicate from which every step goes on to a state that meets it again keeps the machine running. -/
theorem runsOn_of_invariant {P : State → Prop} (progress : ∀ s, P s → ∃ t, step s = .next t ∧ P t)
    {s : State} (hs : P s) : RunsOn s := by
  intro n
  induction n generalizing s with
  | zero => exact ⟨s, rfl⟩
  | succ n ih =>
    obtain ⟨s', hstep, hs'⟩ := progress s hs
    rw [run_succ_of_step hstep]
    exact ih hs'

/-! ## A legal host (R132, R139) -/

/-- No command is running, and the rest of the host's script reaches only what exists. -/
def LegalScript (s : State) : Prop := s.busy = false ∧ s.script.all HostAction.legal = true

/-- The outcome of a host action that leaves `BUSY` clear and the rest of the script as it is. -/
def GoesOnIdle (s : State) (o : Out) : Prop := ∃ t, o = .next t ∧ t.busy = false ∧ t.script = s.script

/-- Every word written to `CMD` runs to completion, an illegal one too (R52, R54). -/
theorem runCommand_goesOnIdle (w : Word) (s : State) : GoesOnIdle s (runCommand w s) := by
  obtain ⟨i, -, hrun⟩ | ⟨e, -, hrun⟩ := runCommand_cases w s
  · obtain ⟨t, ht⟩ := command_goes_on cfgRef i s
    obtain ⟨bs, -, -, stores⟩ := command_storesOnly ht
    exact ⟨t, hrun.trans ((exec_eq_command i s).trans ht), stores.busy, stores.script⟩
  · exact ⟨_, hrun, rfl, rfl⟩

/-- The reset event is served whether a command runs or not (R140). -/
theorem serve_reset {c : Cfg} {run : Word → State → Out} (s : State) : serve c run .reset s = .next (resetEvent s) := by
  simp [serve, allowedWhileBusy]

theorem legal_regAccess {off width : Nat} (h : (width == 8 && (regAt off).isSome) = true) :
    ∃ r : Reg, off = r.offset ∧ width = 8 := by
  simp only [Bool.and_eq_true, beq_iff_eq, Option.isSome_iff_exists] at h
  obtain ⟨hwidth, r, hr⟩ := h
  exact ⟨r, regAt_eq_some_iff.mp hr, hwidth⟩

theorem serve_goesOnIdle {a : HostAction} {s : State} (hbusy : s.busy = false) (ha : a.legal = true) :
    GoesOnIdle s (serve cfgRef runCommand a s) := by
  cases a with
  | regWrite off width v =>
    obtain ⟨r, rfl, rfl⟩ := legal_regAccess ha
    by_cases hcmd : r = .cmd
    · subst hcmd
      have runs := serve_wr_cmd (c := cfgRef) (run := runCommand) hbusy v
      exact runs ▸ runCommand_goesOnIdle v { s with busy := true }
    · exact ⟨_, serve_wr_of_ne_cmd hbusy hcmd v, (regStore_busy ..).trans hbusy, regStore_script ..⟩
  | regRead off width =>
    obtain ⟨r, rfl, rfl⟩ := legal_regAccess ha
    exact ⟨_, serve_rd hbusy r, hbusy, rfl⟩
  | bufWrite sp addr b =>
    have inside : addr < cfgRef.bufCap := of_decide_eq_true ha
    rw [serve_bufWrite hbusy, if_neg (Nat.not_le.mpr inside)]
    exact ⟨_, rfl, (bufPut_busy ..).trans hbusy, bufPut_script ..⟩
  | bufRead sp addr =>
    have inside : addr < cfgRef.bufCap := of_decide_eq_true ha
    rw [serve_bufRead hbusy, if_neg (Nat.not_le.mpr inside)]
    exact ⟨_, rfl, hbusy, rfl⟩
  | reset => exact ⟨_, serve_reset s, rfl, rfl⟩

theorem step_of_legalScript (s : State) (hs : LegalScript s) : ∃ t, step s = .next t ∧ LegalScript t := by
  obtain ⟨hbusy, hlegal⟩ := hs
  cases hscript : s.script with
  | nil => exact ⟨s, step_of_script_nil hscript, hbusy, hlegal⟩
  | cons a rest =>
    rw [hscript, List.all_cons, Bool.and_eq_true] at hlegal
    obtain ⟨ha, hrest⟩ := hlegal
    obtain ⟨t, ht, idle, script_kept⟩ := serve_goesOnIdle (s := { s with script := rest }) hbusy ha
    exact ⟨t, (step_of_script_cons hscript).trans ht, idle, script_kept ▸ hrest⟩

/-! ## The load forms (R56, R57) -/

theorem memWrite_nil (s : State) (sp : Space) (a : Nat) : memWrite s sp a [] = s := by cases sp <;> rfl

/-- A string is stored byte by byte, its head first (R42). -/
theorem memWrite_cons (s : State) (sp : Space) (a : Nat) (x : Byte) (b : Bytes) :
    memWrite s sp a (x :: b) = memWrite (memWrite s sp a [x]) sp (a + 1) b := by
  cases sp <;> rfl

/-- The state in which the host goes on with `l`. -/
def State.withScript (s : State) (l : List HostAction) : State := { s with script := l }

theorem memWrite_withScript (s : State) (sp : Space) (a : Nat) (b : Bytes) (l : List HostAction) :
    memWrite (s.withScript l) sp a b = (memWrite s sp a b).withScript l := by
  cases sp <;> rfl

theorem step_bufWrite_next {sp : Space} (hsp : sp ≠ .out) {s : State} {a : Nat} (x : Byte) (rest : List HostAction)
    (hbusy : s.busy = false) (ha : a < cfgRef.bufCap) :
    step (s.withScript (.bufWrite sp a x :: rest)) = .next ((memWrite s sp a [x]).withScript rest) := by
  rw [step_bufWrite (s := s.withScript (.bufWrite sp a x :: rest)) hbusy rfl, if_neg (Nat.not_le.mpr ha),
    bufPut_of_ne_out hsp, ← memWrite_withScript]
  rfl

/-- The actions of `wrbuf` store the string in a buffer that the host can write. -/
theorem run_wrbufFrom {sp : Space} (hsp : sp ≠ .out) {s : State} {a : Nat} {b : Bytes} (rest : List HostAction)
    (hbusy : s.busy = false) (hfits : a + b.length ≤ cfgRef.bufCap) :
    Host.Core.run Sys2Proof.core b.length (s.withScript (wrbufFrom sp a b ++ rest)) =
      .next ((memWrite s sp a b).withScript rest) := by
  induction b generalizing s a with
  | nil => rw [memWrite_nil]; rfl
  | cons x b ih =>
    rw [List.length_cons] at hfits
    have first_byte := step_bufWrite_next hsp x (wrbufFrom sp (a + 1) b ++ rest) hbusy (a := a) (by omega)
    have idle_after : (memWrite s sp a [x]).busy = false := (memWrite_busy ..).trans hbusy
    rw [wrbufFrom, List.cons_append, List.length_cons, run_succ_of_step first_byte, ih idle_after (by omega),
      ← memWrite_cons]

/-- The state after a string and its length have been written, where the host goes on with `rest`. -/
def State.loaded (s : State) (sp : Space) (r : Reg) (b : Bytes) (rest : List HostAction) : State :=
  regStore ((memWrite s sp 0 b).withScript rest) r (BitVec.ofNat 64 b.length)

/-- The actions of `wrbuf` from address 0, then the write of a register with the string's length. -/
theorem run_load {sp : Space} (hsp : sp ≠ .out) {r : Reg} (hr : r ≠ .cmd) {s : State} {b : Bytes} (rest : List HostAction)
    (hbusy : s.busy = false) (hfits : b.length ≤ cfgRef.bufCap) :
    Host.Core.run Sys2Proof.core (b.length + 1)
        (s.withScript (wrbufFrom sp 0 b ++ [wr r (BitVec.ofNat 64 b.length)] ++ rest)) =
      .next (s.loaded sp r b rest) := by
  have stored := run_wrbufFrom hsp (wr r (BitVec.ofNat 64 b.length) :: rest) hbusy (a := 0) (b := b) (by omega)
  have idle_after : (memWrite s sp 0 b).busy = false := (memWrite_busy ..).trans hbusy
  have length_written := step_wr_of_ne_cmd (s := (memWrite s sp 0 b).withScript (wr r (BitVec.ofNat 64 b.length) :: rest))
    idle_after hr rfl
  rw [List.append_assoc, List.singleton_append, run_add_of_next stored, run_succ_of_step length_written]
  rfl

theorem readByte_regStore (s : State) (r : Reg) (v : Word) (sp : Space) (a : Nat) :
    readByte (regStore s r v) sp a = readByte s sp a := by
  have same_buffers : (regStore s r v).buf = s.buf := buf_congr (regStore_bufA ..) (regStore_bufB ..) (regStore_bufOut ..)
  exact readByte_congr (congrFun same_buffers sp) (regStore_epoch ..) a

section Loaded

variable (s : State) (sp : Space) (r : Reg) (b : Bytes) (rest : List HostAction)

theorem readByte_loaded (a : Nat) : readByte (s.loaded sp r b rest) sp a = readByte (memWrite s sp 0 b) sp a := by
  rw [State.loaded, readByte_regStore]
  cases sp <;> rfl

theorem readByte_loaded_in {i : Nat} (hi : i < b.length) : readByte (s.loaded sp r b rest) sp i = b.getD i 0 := by
  have stored := readByte_memWrite_in s sp (a := 0) hi
  rw [Nat.zero_add] at stored
  rw [readByte_loaded, stored, List.getD_eq_getElem _ _ hi]

theorem readByte_loaded_out {a : Nat} (ha : b.length ≤ a) : readByte (s.loaded sp r b rest) sp a = readByte s sp a := by
  rw [readByte_loaded, readByte_memWrite_out s sp (.inr (by omega))]

end Loaded

/-! ## The obligations -/

/-- Settles O19: a legal script is an invariant under which every step goes on. -/
theorem legalHostNeverStopsTheMachine : Obligations.LegalHostNeverStopsTheMachine :=
  fun _ hbusy hlegal => runsOn_of_invariant step_of_legalScript ⟨hbusy, hlegal⟩

/-- Settles O42: the bytes are stored one by one, then the length, which 32 bits hold. -/
theorem loadFormsFillOperands : Obligations.LoadFormsFillOperands := by
  intro s b rest hbusy hlen
  have hfits : b.length ≤ cfgRef.bufCap := by rw [bufCap_cfgRef]; omega
  have length_value : (BitVec.ofNat 64 b.length).toNat % 2 ^ 32 = b.length := by
    rw [BitVec.toNat_ofNat]
    omega
  constructor
  · refine ⟨s.loaded .a .lenA b rest, run_load (by decide) (by decide) rest hbusy hfits, rfl, ?_,
      fun _ => readByte_loaded_in s .a .lenA b rest, fun _ => readByte_loaded_out s .a .lenA b rest⟩
    exact (regStore_lenA_toNat ..).trans length_value
  · refine ⟨s.loaded .b .lenB b rest, run_load (by decide) (by decide) rest hbusy hfits, rfl, ?_,
      fun _ => readByte_loaded_in s .b .lenB b rest, fun _ => readByte_loaded_out s .b .lenB b rest⟩
    exact (regStore_lenB_toNat ..).trans length_value

end Sys2Proof.Machine
end

section
/-! The statements on MixCore (spec/40_mixcore.md R61, R63, R66). The bit-pair method finds the root digit by digit, the
highest first, so a call of its second loop stands for the root of what is left of `n` plus the square of the digits found.
The epsilon channel folds XOR over an initial segment of its seven rounds. -/

namespace Sys2Proof.Machine

/-! ## The integer square root (R61) -/

/-- With `e` digits to find and `m` the number that the digits found so far spell, `r` is `4^e·m`, and `n` has lost the
square of `2^e·m`. -/
theorem isqrtLoop_eq_sqrt {e n m : Nat} (h : n < 4 ^ e * (2 * m + 1)) :
    isqrtLoop e n (4 ^ e * m) = Nat.sqrt (n + 4 ^ e * (m * m)) := by
  induction e generalizing n m with
  | zero =>
    have remainder_small : n ≤ m + m := by omega
    rw [isqrtLoop, pow_zero, one_mul, one_mul, Nat.add_comm, Nat.sqrt_add_eq m remainder_small]
  | succ e ih =>
    rw [pow_succ'] at h ⊢
    rw [isqrtLoop]
    by_cases digit_one : 4 * 4 ^ e * m + 4 ^ e ≤ n
    · have root_next : 4 * 4 ^ e * m / 2 + 4 ^ e = 4 ^ e * (2 * m + 1) := by grind
      have remainder_next : n - (4 * 4 ^ e * m + 4 ^ e) < 4 ^ e * (2 * (2 * m + 1) + 1) := by grind
      have target_next : n - (4 * 4 ^ e * m + 4 ^ e) + 4 ^ e * ((2 * m + 1) * (2 * m + 1)) = n + 4 * 4 ^ e * (m * m) := by
        grind
      rw [if_pos digit_one, root_next, ih remainder_next, target_next]
    · have root_next : 4 * 4 ^ e * m / 2 = 4 ^ e * (2 * m) := by grind
      have remainder_next : n < 4 ^ e * (2 * (2 * m) + 1) := by grind
      have target_next : n + 4 ^ e * (2 * m * (2 * m)) = n + 4 * 4 ^ e * (m * m) := by ring
      rw [if_neg digit_one, root_next, ih remainder_next, target_next]

theorem lt_four_pow_isqrtStart_succ {k n : Nat} (h : n < 4 ^ (k + 1)) : n < 4 ^ (isqrtStart k n + 1) := by
  induction k with
  | zero => exact h
  | succ k ih =>
    rw [isqrtStart]
    split_ifs with smaller
    · exact ih smaller
    · exact h

/-- R61 asks this below 2^34; the method, which starts at the digit of 4^17, is right below 2^36. -/
theorem isqrt_eq_sqrt {n : Nat} (h : n < 4 ^ 18) : isqrt n = Nat.sqrt n := by
  have all_digits := isqrtLoop_eq_sqrt (m := 0) (by simpa using lt_four_pow_isqrtStart_succ (k := 17) h)
  simpa [isqrt] using all_digits

/-! ## The epsilon channel (R63) -/

/-- The rounds that depth `d` runs are those of the seven that it reaches. -/
theorem range_epsRounds (d : BitVec 6) :
    List.range (min d.toNat epsCap + 1) = (List.range 7).filter fun i => i ≤ d.toNat := by
  revert d
  decide

/-- A round that the depth does not reach is an XOR with 0. -/
theorem ite_xor_eq_xor_ite (p : Prop) [Decidable p] (eps x : Word) :
    (if p then eps ^^^ x else eps) = eps ^^^ if p then x else 0 := by
  split_ifs
  · rfl
  · exact BitVec.xor_zero.symm

theorem epsilon_eq_foldl_all_rounds (c : Cfg) (x : Word) (d : BitVec 6) (k : Quad Word) :
    epsilon c x d k = (List.range 7).foldl (fun eps i => eps ^^^ if i ≤ d.toNat then epsTerm c x k i else 0) 0#64 := by
  simp only [epsilon, range_epsRounds, List.foldl_filter, decide_eq_true_eq, ite_xor_eq_xor_ite]

theorem epsTerm_congr {k k' : Quad Word} {i : Nat} (h : quadGet k (mod4 i) = quadGet k' (mod4 i)) (c : Cfg) (x : Word) :
    epsTerm c x k i = epsTerm c x k' i := by
  rw [epsTerm, epsTerm, h]

/-- Round `i` reads `K[i mod 4]`, and `i mod 4 ≤ i`: so depth `d` reads no key word beyond `K[d]`. -/
theorem epsilon_congr {k k' : Quad Word} {d : BitVec 6} (h : ∀ i : Fin 4, i.val ≤ d.toNat → quadGet k i = quadGet k' i)
    (c : Cfg) (x : Word) : epsilon c x d k = epsilon c x d k' := by
  refine List.foldl_ext _ _ _ fun eps i hi => ?_
  have round_reached : i < min d.toNat epsCap + 1 := List.mem_range.mp hi
  have key_word_reached : (mod4 i).val ≤ d.toNat := by
    rw [mod4_val]
    omega
  rw [epsTerm_congr (h (mod4 i) key_word_reached)]

/-! ## The obligations -/

/-- Settles O46: below 2^36 `isqrt` is the library's `Nat.sqrt`. -/
theorem isqrtIsFloorOfRoot : Obligations.IsqrtIsFloorOfRoot := by
  intro n hn
  rw [isqrt_eq_sqrt (hn.trans (by decide))]
  exact ⟨Nat.sqrt_le n, Nat.lt_succ_sqrt n⟩

/-- Settles O47: the fold over all seven rounds written out, and the key words that the rounds read. -/
theorem epsilonRoundsAndKeyWords : Obligations.EpsilonRoundsAndKeyWords := by
  refine fun c x k => ⟨fun d => ?rounds, fun d k' h => epsilon_congr h c x⟩
  case rounds =>
    rw [epsilon_eq_foldl_all_rounds]
    simp only [List.range_succ, List.range_zero, List.nil_append, List.cons_append, List.foldl_cons, List.foldl_nil,
      BitVec.zero_xor]
    rfl

/-- Settles O30: the word is MIX's encoding, and the effect is the command's one result. -/
theorem mixResult : Obligations.MixResult :=
  ⟨decodeEncodeRoundTrip .mix rfl, fun s => (exec_eq_command .mix s).trans (mixCmd_eq_next.mpr rfl)⟩

end Sys2Proof.Machine
end

section
/-! The statements on the DRBG's internal functions (spec/41_drbg_functions.md R70, R73, R76, R78, R80). The pair `V` stands
for a number below 2^128, and `v_inc` adds 1 to that number. A byte string is cut eight bytes at a time. A step of the
diffusion XORs into one lane a word that the other lanes give, so it can be undone. -/

namespace Sys2Proof.Machine

/-! ## The counter (R17, R70) -/

/-- `V[0]` is full where it wraps to 0, and only there does the carry reach `V[1]`. -/
theorem counterNat_vInc (v : Counter) : counterNat (vInc v) = (counterNat v + 1) % 2 ^ 128 := by
  have hlo := v.lo.isLt
  have hhi := v.hi.isLt
  by_cases carry : v.lo + 1#64 = 0#64
  · have lo_full : v.lo.toNat = 2 ^ 64 - 1 := by bv_omega
    have stepped : vInc v = ⟨0#64, v.hi + 1#64⟩ := by simp [vInc, carry]
    simp only [stepped, counterNat, BitVec.toNat_add, BitVec.toNat_ofNat]
    omega
  · have lo_room : v.lo.toNat + 1 < 2 ^ 64 := by bv_omega
    have stepped : vInc v = ⟨v.lo + 1#64, v.hi⟩ := by simp [vInc, carry]
    simp only [stepped, counterNat, BitVec.toNat_add, BitVec.toNat_ofNat]
    omega

theorem counterOf_counterNat (v : Counter) : counterOf (counterNat v) = v := by
  have hlo := v.lo.isLt
  have lo_back : BitVec.ofNat 64 (counterNat v) = v.lo := by
    apply BitVec.eq_of_toNat_eq
    rw [BitVec.toNat_ofNat, counterNat]
    omega
  have hi_back : counterNat v / 2 ^ 64 = v.hi.toNat := by
    rw [counterNat]
    omega
  rw [counterOf, lo_back, hi_back, BitVec.ofNat_toNat, BitVec.setWidth_eq]

/-- The registers hold the number modulo 2^128. -/
theorem counterOf_mod (n : Nat) : counterOf (n % 2 ^ 128) = counterOf n := by
  rw [counterOf, counterOf, Counter.mk.injEq]
  constructor <;> apply BitVec.eq_of_toNat_eq <;> rw [BitVec.toNat_ofNat, BitVec.toNat_ofNat] <;> omega

theorem counterOf_mod_add (m n : Nat) : counterOf (m % 2 ^ 128 + n) = counterOf (m + n) := by
  rw [← counterOf_mod, Nat.mod_add_mod, counterOf_mod]

theorem vAdvance_eq_counterOf (n : Nat) (v : Counter) : vAdvance n v = counterOf (counterNat v + n) := by
  induction n generalizing v with
  | zero => rw [vAdvance, Nat.add_zero, counterOf_counterNat]
  | succ n ih => rw [vAdvance, ih, counterNat_vInc, counterOf_mod_add, Nat.add_assoc, Nat.add_comm 1]

/-! ## The schedule of the block function (R73) -/

/-- The four entries of a row differ, so among the four lane indices none is missing. -/
theorem quadGet_surjective_of_permRow {p : Quad (Fin 4)} (h : permRow p = true) : Function.Surjective (quadGet p) := by
  obtain ⟨h01, h02, h03, h12, h13, h23⟩ := of_decide_eq_true h
  apply Finite.injective_iff_surjective.mp
  intro i j hij
  fin_cases i <;> fin_cases j <;> simp_all [quadGet]

/-- The rows of `PERM` in a configuration that meets R7. -/
theorem permRow_getElem {c : Cfg} (h : c.wellFormed = true) (i : Fin 8) : permRow c.perm[i] = true := by
  obtain ⟨-, -, -, -, rows, -⟩ := (Cfg.wellFormed_iff c).mp h
  exact List.all_eq_true.mp rows _ (Vector.mem_toList_iff.mpr (Vector.getElem_mem i.isLt))

/-! ## Cutting a byte string into lanes (R76) -/

/-- A byte string that is not empty gives one lane of its first eight bytes, then the lanes of the rest. -/
theorem lanes_of_ne_nil {b : Bytes} (h : b ≠ []) : lanes b = wordOfLe (b.take 8) :: lanes (b.drop 8) := by
  fun_cases lanes b with
  | case1 => rfl
  | case2 => exact absurd rfl h
  | case3 _ not_long =>
    have short : b.length ≤ 8 := by
      by_contra long
      refine not_long b[0] b[1] b[2] b[3] b[4] b[5] b[6] b[7] (b.drop 8) ?_
      simp only [← List.drop_eq_getElem_cons, List.drop_zero]
    rw [List.take_of_length_le short, List.drop_eq_nil_of_le short]
    rfl

theorem lanes_length (b : Bytes) : (lanes b).length = (b.length + 7) / 8 := by
  by_cases h : b = []
  · rw [h]; rfl
  · have hpos := List.length_pos_iff.mpr h
    rw [lanes_of_ne_nil h, List.length_cons, lanes_length (b.drop 8), List.length_drop]
    omega
termination_by b.length
decreasing_by
  rw [List.length_drop]
  omega

/-- Lane `q` is cut from byte `8q` on; beyond the last lane both sides are 0. -/
theorem lanes_getD (b : Bytes) (q : Nat) : (lanes b).getD q 0 = wordOfLe ((b.drop (8 * q)).take 8) := by
  induction q generalizing b with
  | zero =>
    by_cases h : b = []
    · rw [h]; rfl
    · rw [lanes_of_ne_nil h]; rfl
  | succ q ih =>
    by_cases h : b = []
    · rw [h, List.drop_nil]; rfl
    · rw [lanes_of_ne_nil h, List.getD_cons_succ, ih, List.drop_drop, Nat.mul_succ, Nat.add_comm]

theorem fromLe_lt (b : Bytes) : fromLe b < 256 ^ b.length := by
  induction b with
  | nil => exact Nat.one_pos
  | cons x b ih =>
    have hx := x.isLt
    rw [fromLe, List.length_cons, pow_succ]
    omega

/-- The weight of byte `t` is 2^(8t), and bytes beyond the end count as 0. -/
theorem fromLe_eq_sum {b : Bytes} {n : Nat} (h : b.length ≤ n) :
    fromLe b = ((List.range n).map fun t => (b.getD t 0).toNat * 2 ^ (8 * t)).sum := by
  induction b generalizing n with
  | nil => simp [fromLe]
  | cons x b ih =>
    obtain ⟨m, rfl⟩ : ∃ m, n = m + 1 := Nat.exists_eq_add_one.mpr (Nat.zero_lt_of_lt h)
    have rest_short : b.length ≤ m := Nat.le_of_succ_le_succ h
    have weight (t : Nat) : (b.getD t 0).toNat * 2 ^ (8 * (t + 1)) = 256 * ((b.getD t 0).toNat * 2 ^ (8 * t)) := by
      ring
    rw [fromLe, ih rest_short, List.range_succ_eq_map, List.map_cons, List.sum_cons, List.map_map,
      ← List.sum_map_mul_left]
    simp only [Function.comp_def, List.getD_cons_zero, Nat.succ_eq_add_one, List.getD_cons_succ, weight, mul_zero, pow_zero,
      mul_one]

theorem wordOfLe_toNat {b : Bytes} (h : b.length ≤ 8) :
    (wordOfLe b).toNat = ((List.range 8).map fun t => (b.getD t 0).toNat * 2 ^ (8 * t)).sum := by
  have fits : fromLe b < 2 ^ 64 := (fromLe_lt b).trans_le (Nat.pow_le_pow_right (by decide) h)
  rw [wordOfLe, BitVec.toNat_ofNat, Nat.mod_eq_of_lt fits, fromLe_eq_sum h]

theorem getD_take_drop (b : Bytes) (a : Nat) {n t : Nat} (h : t < n) : ((b.drop a).take n).getD t 0 = b.getD (a + t) 0 := by
  simp [List.getD_eq_getElem?_getD, h]

/-! ## The diffusion (R78) -/

theorem mod4_add_ne {j i : Nat} (h : i % 4 ≠ 0) : mod4 (j + i) ≠ mod4 j := by
  rw [Ne, Fin.ext_iff, mod4_val, mod4_val]
  omega

/-- A step XORs into lane `j` a word of the lanes `j + 1` and `j + 3`, which it leaves alone. -/
theorem diffuseStep_injective (c : Cfg) (k : Quad Word) (ps j : Nat) :
    Function.Injective fun pd => diffuseStep c k ps pd j := by
  intro p q h
  have other_lanes {i : Fin 4} (hi : i ≠ mod4 j) : quadGet p i = quadGet q i := by
    simpa [diffuseStep, quadGet_quadSet_other _ _ hi] using congrArg (quadGet · i) h
  have lane_j : quadGet p (mod4 j) = quadGet q (mod4 j) := by
    simpa [diffuseStep, other_lanes (mod4_add_ne (j := j) (i := 1) (by decide)),
      other_lanes (mod4_add_ne (j := j) (i := 3) (by decide))] using congrArg (quadGet · (mod4 j)) h
  refine quad_ext_get fun i => ?_
  by_cases hi : i = mod4 j
  · rw [hi, lane_j]
  · exact other_lanes hi

/-- A sequence of steps each of which can be undone can be undone. -/
theorem foldl_injective {α β : Type} {f : β → α → β} (h : ∀ a, Function.Injective fun b => f b a) (l : List α) :
    Function.Injective fun b => l.foldl f b := by
  induction l with
  | nil => exact Function.injective_id
  | cons a l ih => exact ih.comp (h a)

/-! ## The update (R80) -/

/-- R19: a counter of 64 bits counts as the register does. -/
theorem countUp_of_rcW {c : Cfg} (h : c.rcW = 64) (rc : Word) : countUp c rc = rc + 1 := by
  apply BitVec.eq_of_toNat_eq
  simp [countUp, h]

/-! ## The obligations -/

/-- Settles O48, on each side of the carry out of `V[0]`. -/
theorem counterIncrementModulo128 : Obligations.CounterIncrementModulo128 := counterNat_vInc

/-- Settles O49: the eight round counts one by one, and the rows of `PERM` as R7 has them. -/
theorem blockSchedule : Obligations.BlockSchedule := by
  intro shell
  constructor
  · revert shell
    decide
  · exact quadGet_surjective_of_permRow (permRow_getElem referenceConfigurationIsWellFormed shell.toFin)

/-- Settles O50: lane `q` is the little-endian word of the eight bytes from `8q` on. -/
theorem lanePacking : Obligations.LanePacking := by
  refine fun b => ⟨lanes_length b, fun q _ => ?_⟩
  rw [lanes_getD, wordOfLe_toNat (List.length_take_le 8 _)]
  refine congrArg List.sum (List.map_congr_left fun t ht => ?_)
  rw [getD_take_drop b (8 * q) (List.mem_range.mp ht)]

/-- Settles O53: each of the eight steps of the two passes is injective. -/
theorem diffusionIsInvertible : Obligations.DiffusionIsInvertible := by
  intro c k p q h
  have pass_injective (ps : Nat) : Function.Injective fun pd => [0, 1, 2, 3].foldl (diffuseStep c k ps) pd :=
    foldl_injective (diffuseStep_injective c k ps) _
  exact foldl_injective pass_injective [0, 1] h

/-- Settles O54: the four counters as numbers one apart, and a missing `PD` as four zero words. -/
theorem updateFormula : Obligations.UpdateFormula := by
  intro c d pd v t u
  have block_at_counter (i : Fin 4) : updT c d.k (vAdvance (i.val + 1) d.v) pd i = t i := by
    rw [vAdvance_eq_counterOf]
    cases pd with
    | none => exact BitVec.xor_zero.symm
    | some p => rfl
  have last_counter : vAdvance 4 d.v = v 4 := vAdvance_eq_counterOf 4 d.v
  refine ⟨fun i => ?key, ?low, ?high, rfl, countUp_of_rcW (rc := d.rc)⟩
  case key =>
    rw [← block_at_counter]
    fin_cases i <;> rfl
  case low =>
    rw [← block_at_counter 0, ← block_at_counter 2, ← last_counter]
    rfl
  case high =>
    rw [← block_at_counter 1, ← block_at_counter 3, ← last_counter]
    rfl

end Sys2Proof.Machine
end

section
/-! The statements on the DRBG commands (spec/42_drbg_commands.md R90 to R97). Byte `j` of GENERATE's output is a byte of the
block that the `j div 8 + 1`-th increment of `V` gives, however long the output is. The effect of GENERATE, what a
shorter output shares with a longer one, and the equivalence with NEXT_U64 rest on that. -/

namespace Sys2Proof.Machine

/-! ## Bytes of a word (R8) -/

theorem byteAt_of_lt {b : Bytes} {i : Nat} (h : i < b.length) : byteAt b i = b[i] := List.getD_eq_getElem b 0 h

/-- Byte `i` of a little-endian encoding is the digit of weight `256^i`. -/
theorem byteAt_leBytes_toNat {n i : Nat} (h : i < n) (v : Nat) : (byteAt (leBytes n v) i).toNat = v / 256 ^ i % 256 := by
  induction n generalizing i v with
  | zero => exact absurd h i.not_lt_zero
  | succ n ih =>
    cases i with
    | zero => rw [pow_zero, Nat.div_one]; exact BitVec.toNat_ofNat v 8
    | succ i => rw [pow_succ', ← Nat.div_div_eq_div_mul]; exact ih (Nat.lt_of_succ_lt_succ h) (v / 256)

/-! ## The output stream (R92) -/

/-- The blocks' bytes in a row: every block gives eight of them. -/
theorem byteAt_blocks (c : Cfg) (k : Quad Word) {n j : Nat} (h : j < 8 * n) (v : Counter) :
    byteAt ((blocks c k n v).flatMap le64) j = byteAt (le64 (block c (vAdvance (j / 8 + 1) v) k)) (j % 8) := by
  induction n generalizing j v with
  | zero => exact absurd h j.not_lt_zero
  | succ n ih =>
    rw [blocks, List.flatMap_cons, byteAt]
    rcases Nat.lt_or_ge j 8 with first_block | later_block
    · rw [List.getD_append _ _ _ _ (by rwa [le64_length]), Nat.div_eq_of_lt first_block, Nat.mod_eq_of_lt first_block]
      rfl
    · obtain ⟨i, rfl⟩ := Nat.exists_eq_add_of_le' later_block
      rw [List.getD_append_right _ _ _ _ (by rwa [le64_length]), le64_length, Nat.add_sub_cancel, Nat.add_mod_right,
        Nat.add_div_right i (by decide)]
      exact ih (by omega) (vInc v)

/-- The length decides how many bytes there are, not what they are. -/
theorem stream_getElem (c : Cfg) (k : Quad Word) (v : Counter) {len j : Nat} (h : j < (stream c k v len).length) :
    (stream c k v len)[j] = byteAt (le64 (block c (vAdvance (j / 8 + 1) v) k)) (j % 8) := by
  have in_the_blocks : j < 8 * blockCount len := by
    rw [stream_length] at h
    rw [blockCount]
    omega
  rw [← byteAt_blocks c k in_the_blocks]
  exact List.getElem_take.trans (byteAt_of_lt _).symm

/-- Eight bytes are one whole block. -/
theorem stream_eight (c : Cfg) (k : Quad Word) (v : Counter) : stream c k v 8 = le64 (block c (vInc v) k) := by
  have one_block : blocks c k (blockCount 8) v = [block c (vInc v) k] := rfl
  rw [stream, one_block, List.flatMap_singleton, List.take_of_length_le (le64_length _).le]

/-! ## Strings at the head of a space (R11) -/

theorem memRead_zero (s : State) (sp : Space) (n : Nat) : memRead s sp 0 n = (List.range n).map (readByte s sp) := by
  simp only [memRead, Nat.zero_add]

/-- What a command stored in OUT reads back byte by byte. -/
theorem StoresOnly.readByte_out_stored {bs : Bytes} {s t : State} (h : StoresOnly bs s t) {j : Nat} (hj : j < bs.length) :
    readByte t .out j = bs[j] := by
  have stored : readByte t .out j = readByte (memWrite s .out 0 bs) .out j :=
    readByte_congr (t := memWrite s .out 0 bs) (sp := .out) h.bufOut h.epoch j
  rw [stored, ← readByte_memWrite_in s .out (a := 0) hj, Nat.zero_add]

theorem StoresOnly.memRead_out {bs : Bytes} {s t : State} (h : StoresOnly bs s t) : memRead t .out 0 bs.length = bs := by
  refine List.ext_getElem (memRead_length ..) fun j _ hj => ?_
  rw [← h.readByte_out_stored hj]
  simp only [memRead_zero, List.getElem_map, List.getElem_range]

/-! ## What the commands leave in the registers (R90 to R93) -/

/-- Nothing of the `K`, `V` and `RC` before is in the result (R90). -/
theorem instantiateDrbg_eq (c : Cfg) (s : State) :
    instantiateDrbg c s =
      let w := expand c (seedCombine c s)
      let u := update c ⟨w.1, w.2, 0⟩ (some (makePD c w.1 (rawOperands s) []))
      ⟨u.k, u.v, 1⟩ := rfl

/-- INSTANTIATE reads the operand registers alone (R90). -/
theorem instantiateDrbg_congr {s s' : State} (h : s'.arg = s.arg) (c : Cfg) :
    instantiateDrbg c s' = instantiateDrbg c s := by
  simp only [instantiateDrbg_eq, seedCombine, rawOperands, h]

theorem exec_instantiate (s : State) :
    exec .instantiate s = .next { s with drbg := instantiateDrbg cfgRef s, life := .ready, err := .ok, busy := false } :=
  (exec_eq_command .instantiate s).trans (instantiateCmd_eq_next.mpr rfl)

theorem preUpdate_of_lenB_zero {s : State} (h : s.lenB = 0) (c : Cfg) : preUpdate c s = s.drbg := if_pos h

/-- The registers before GENERATE's blocks, with the bytes of `B` written out (R92). -/
theorem preUpdate_eq (c : Cfg) (s : State) :
    preUpdate c s = if s.lenB = 0 then s.drbg
      else update c s.drbg (some (makePD c s.drbg.k [] ((List.range s.lenB.toNat).map (readByte s .b)))) := by
  rw [preUpdate, inputB, memRead_zero]
  rfl

/-- A GENERATE with a 32-bit length fails no check but that of the null output under `CFG_REF` (R37, R92). -/
theorem exec_generate_of_valid {s : State} {ov : Bool} {len : Nat} (hlen : len < 2 ^ 32) (hout : len = 0 ∨ ov = true)
    (pr : Bool) :
    exec (.generate ov pr len) s = .next
      { memWrite { s with drbg := postUpdate cfgRef (preUpdate cfgRef s) len } .out 0
          (stream cfgRef (preUpdate cfgRef s).k (preUpdate cfgRef s).v len) with err := .ok, busy := false } := by
  have output_present : ¬(len ≠ 0 ∧ ov = false) := by
    rintro ⟨nonzero, rfl⟩
    exact hout.elim nonzero Bool.false_ne_true
  rw [exec_eq_command]
  exact generateCmd_of_valid ⟨output_present, Nat.le_sub_one_of_lt hlen, word32_le_bufCap s.lenB⟩

/-! ## The obligations -/

/-- Settles O33: the stored stream byte by byte, the counters as numbers. -/
theorem generateResult : Obligations.GenerateResult := by
  intro s ov pr len hlen hout ad d
  have d_eq : preUpdate cfgRef s = d := preUpdate_eq cfgRef s
  have run := exec_generate_of_valid (s := s) hlen hout pr
  rw [d_eq] at run
  have stores := StoresOnly.of_stored s (postUpdate cfgRef d len) (stream cfgRef d.k d.v len) .ok
  have stored_length := stream_length cfgRef d.k d.v len
  refine ⟨_, run, rfl, ?registers, fun j hj => ?inside, fun a ha => ?beyond⟩
  case registers =>
    rw [← blockCount, ← vAdvance_eq_counterOf]
    rfl
  case inside =>
    have digit : j % 8 < 8 := Nat.mod_lt j (by decide)
    rw [stores.readByte_out_stored (hj.trans_eq stored_length.symm), stream_getElem, le64, byteAt_leBytes_toNat digit,
      vAdvance_eq_counterOf]
  case beyond => exact stores.readByte_out (stored_length.trans_le ha)

/-- Settles O35: byte by byte, since no byte depends on the length. -/
theorem outputStreamPrefix : Obligations.OutputStreamPrefix := by
  refine fun c k v m n hmn => ⟨List.ext_getElem ?_ fun j _ _ => ?_, stream_length c k v n⟩
  · rw [List.length_take, stream_length, stream_length, Nat.min_eq_left hmn]
  · rw [List.getElem_take, stream_getElem, stream_getElem]

/-- Settles O37: eight bytes are one block, which both commands make of the same `K` and `V`. -/
theorem nextU64IsGenerateOfEight : Obligations.NextU64IsGenerateOfEight := by
  intro s t u pr hlenB ht hu
  rw [exec_eq_command] at ht
  obtain rfl := nextU64Cmd_eq_next.mp ht
  rw [exec_generate_of_valid (by decide) (.inr rfl), preUpdate_of_lenB_zero hlenB, stream_eight] at hu
  obtain rfl := Host.Outcome.next.inj hu
  have stores := StoresOnly.of_stored s (postUpdate cfgRef s.drbg 8) (le64 (block cfgRef (vInc s.drbg.v) s.drbg.k)) .ok
  have word_back := stores.memRead_out
  rw [le64_length] at word_back
  rw [word_back, wordOfLe_le64]
  exact ⟨rfl, rfl, rfl, rfl⟩

/-- Settles O22: the counter goes up by 1 or by 2, and the premise leaves room for both. -/
theorem reseedCounterIncreases : Obligations.ReseedCounterIncreases := by
  intro s t room
  refine ⟨fun h => ?next_u64, fun ov pr len _ h ok => ?generate⟩
  case next_u64 =>
    have counted : t.drbg.rc = s.drbg.rc + 1 := reseedCounterLaws .nextU64 s t rfl h
    bv_omega
  case generate =>
    rw [exec_eq_command] at h
    obtain ⟨-, rfl⟩ | ⟨-, rfl⟩ := generateCmd_eq_next h
    · exact absurd ok ErrCode.noConfusion
    · have counted := generate_rc_cfgRef s len
      simp only [memWrite_drbg]
      split_ifs at counted <;> bv_omega

/-- Settles O31, with the rotations of `CFG_REF`. -/
theorem instantiateResult : Obligations.InstantiateResult := by
  intro s e n p w u
  have registers : instantiateDrbg cfgRef s = ⟨u.k, u.v, 1⟩ := instantiateDrbg_eq cfgRef s
  rw [exec_instantiate, registers]

/-- Settles O28: ZEROIZE leaves the operand registers, which are all that INSTANTIATE reads. -/
theorem zeroizeThenInstantiateIsInstantiate : Obligations.ZeroizeThenInstantiateIsInstantiate := by
  intro s t h
  rw [exec_eq_command] at h
  have t_eq := zeroizeCmd_eq_next.mp h
  have same_arg : t.arg = s.arg := by rw [t_eq]
  rw [exec_instantiate, exec_instantiate, instantiateDrbg_congr same_arg, t_eq]

/-- Settles O32: no length is over the capacity of `CFG_REF`. -/
theorem reseedResult : Obligations.ReseedResult := by
  intro s e ad u
  have e_eq : inputA s = e := memRead_zero s .a _
  have ad_eq : inputB s = ad := memRead_zero s .b _
  have registers : reseedDrbg cfgRef s = ⟨u.k, u.v, 1⟩ := by rw [reseedDrbg, e_eq, ad_eq]
  rw [exec_eq_command, ← registers]
  exact reseedCmd_of_fits ⟨word32_le_bufCap s.lenA, word32_le_bufCap s.lenB⟩

/-- Settles O34: the null-output check stands before the length checks and before the update. -/
theorem generateNullOutputFails : Obligations.GenerateNullOutputFails := by
  intro s pr len hlen
  rw [exec_eq_command]
  exact generateCmd_of_invalid (.inl ⟨hlen, rfl⟩)

/-- Settles O36: the command has no check, so it has one result. -/
theorem nextU64Result : Obligations.NextU64Result := by
  intro s v
  rw [exec_eq_command]
  exact nextU64Cmd_eq_next.mpr rfl

/-- Settles O38: the command has no check, so it has one result. -/
theorem zeroizeResult : Obligations.ZeroizeResult := by
  intro s
  rw [exec_eq_command]
  exact zeroizeCmd_eq_next.mpr rfl

end Sys2Proof.Machine
end

section
/-! The statements on the seed commands (spec/43_seed_engine.md R111, R112) and on the integration of a seed with the
generator (R115, spec/30_encoding.md R57). Under `CFG_REF` no length is over the capacity, so the checks on the data and on
the output buffer alone decide between the seed and the error. -/

namespace Sys2Proof.Machine

/-! ## The input and the words of a seed (R8, R112) -/

theorem inputA_eq_map (s : State) : inputA s = (List.range s.lenA.toNat).map (readByte s .a) := memRead_zero s .a _

theorem fromLe_digit (b : Bytes) (k : Nat) : fromLe b / 256 ^ k % 256 = (b.getD k 0).toNat := by
  induction b generalizing k with
  | nil => simp [fromLe]
  | cons x b ih =>
    have hx := x.isLt
    cases k with
    | zero =>
      rw [fromLe, pow_zero, Nat.div_one, List.getD_cons_zero]
      omega
    | succ k =>
      have next_digit : (x.toNat + 256 * fromLe b) / 256 = fromLe b := by omega
      rw [fromLe, pow_succ', ← Nat.div_div_eq_div_mul, next_digit, ih, List.getD_cons_succ]

/-- Byte `k` of a little-endian word, from the least significant, is byte `k` of the string it is read from. -/
theorem wordOfLe_byte (b : Bytes) {k : Nat} (hk : k < 8) : (wordOfLe b).extractLsb' (8 * k) 8 = b.getD k 0 := by
  apply BitVec.eq_of_toNat_eq
  have weight : 2 ^ (8 * k) = 256 ^ k := pow_mul 2 8 k
  have cut : 2 ^ 64 = 256 ^ k * 256 ^ (8 - k) := by rw [← pow_add, Nat.add_sub_cancel' hk.le]; rfl
  have one_byte : 256 ∣ 256 ^ (8 - k) := dvd_pow_self 256 (by omega)
  rw [BitVec.extractLsb'_toNat, Nat.shiftRight_eq_div_pow, wordOfLe, BitVec.toNat_ofNat, weight, cut,
    Nat.mod_mul_right_div_self, Nat.mod_mod_of_dvd _ one_byte, fromLe_digit]

theorem seedWord_byte (seed : Digest) (i : Nat) {k : Nat} (hk : k < 8) :
    (seedWord seed i).extractLsb' (8 * k) 8 = seed.toList.getD (8 * i + k) 0 := by
  rw [seedWord, wordOfLe_byte _ hk, getD_take_drop _ _ hk]

/-- The four words that EXTRACT_U64 leaves in `RES` (R112). -/
def seedWords (seed : Digest) : Quad Word := ⟨seedWord seed 0, seedWord seed 1, seedWord seed 2, seedWord seed 3⟩

theorem quadGet_seedWords (seed : Digest) (i : Fin 4) : quadGet (seedWords seed) i = seedWord seed i := by
  fin_cases i <;> rfl

/-! ## The commands that succeed (R111, R112) -/

theorem exec_extract_of_data {s : State} (h : s.lenA ≠ 0) :
    exec (.extract true true) s = .next
      { memWrite s .out 0 (extractSeed cfgRef (inputA s)).toList with err := .ok, busy := false } :=
  (exec_eq_command _ s).trans (extractCmd_of_valid ⟨rfl, h, rfl, word32_le_bufCap s.lenA⟩)

theorem exec_extractU64_of_data {s : State} (h : s.lenA ≠ 0) :
    exec (.extractU64 true) s = .next
      { s with res := seedWords (extractSeed cfgRef (inputA s)), err := .ok, busy := false } :=
  (exec_eq_command _ s).trans (extractU64Cmd_of_valid ⟨rfl, h, word32_le_bufCap s.lenA⟩)

/-! ## From the seed to the generator (R57, R115) -/

theorem step_issue {s : State} {i : Instr} {rest : List HostAction} (hi : i.wellFormed = true) (hbusy : s.busy = false)
    (h : s.script = issue i :: rest) : step s = exec i { s with script := rest, busy := true } :=
  stepRunsDecodedCommand s rest (encode i) i hbusy h (decodeEncodeRoundTrip i hi)

section Script

variable {s : State} (hbusy : s.busy = false)
include hbusy

theorem run_rd (r : Reg) (rest : List HostAction) (n : Nat) :
    Host.Core.run Sys2Proof.core (n + 1) (s.withScript (rd r :: rest)) =
      Host.Core.run Sys2Proof.core n ({ s with readData := regValue s r }.withScript rest) := by
  have read : step (s.withScript (rd r :: rest)) = .next ({ s with readData := regValue s r }.withScript rest) :=
    (step_rd (s := s.withScript (rd r :: rest)) hbusy rfl).trans (by cases r <;> rfl)
  exact run_succ_of_step read n

theorem run_wr {r : Reg} (hr : r ≠ .cmd) (v : Word) (rest : List HostAction) (n : Nat) :
    Host.Core.run Sys2Proof.core (n + 1) (s.withScript (wr r v :: rest)) =
      Host.Core.run Sys2Proof.core n ((regStore s r v).withScript rest) := by
  have written : step (s.withScript (wr r v :: rest)) = .next ((regStore s r v).withScript rest) :=
    (step_wr_of_ne_cmd (s := s.withScript (wr r v :: rest)) hbusy hr rfl).trans (by cases r <;> rfl)
  exact run_succ_of_step written n

theorem run_issue_instantiate :
    Host.Core.run Sys2Proof.core 1 (s.withScript [issue .instantiate]) = exec .instantiate (s.withScript []) := by
  have done := (step_issue (s := s.withScript [issue .instantiate]) rfl hbusy rfl).trans (exec_instantiate _)
  rw [run_succ_of_step done, exec_instantiate]
  rfl

/-- The three operands are written, then INSTANTIATE runs (R57). -/
theorem run_instantiateForm (e n p : Word) :
    Host.Core.run Sys2Proof.core 4 (s.withScript (instantiateForm e n p)) =
      exec .instantiate { s with script := [], arg := { s.arg with a0 := e, a1 := n, a2 := p } } := by
  rw [instantiateForm, run_wr hbusy Reg.noConfusion, run_wr (s := regStore s (.arg 0) e) hbusy Reg.noConfusion,
    run_wr (s := regStore (regStore s (.arg 0) e) (.arg 1) n) hbusy Reg.noConfusion,
    run_issue_instantiate (s := regStore (regStore (regStore s (.arg 0) e) (.arg 1) n) (.arg 2) p) hbusy]
  rfl

/-- The host reads three words of `RES` and instantiates the generator with them (R115). -/
theorem run_seedInstantiate :
    Host.Core.run Sys2Proof.core 7 (s.withScript (seedInstantiate s.res)) =
      exec .instantiate { s with
        script := [], readData := s.res.q2, arg := { s.arg with a0 := s.res.q0, a1 := s.res.q1, a2 := s.res.q2 } } := by
  have read_0 := run_rd hbusy (.res 0) ([rd (.res 1), rd (.res 2)] ++ instantiateForm s.res.q0 s.res.q1 s.res.q2) 6
  have read_1 := run_rd (s := { s with readData := s.res.q0 }) hbusy (.res 1)
    ([rd (.res 2)] ++ instantiateForm s.res.q0 s.res.q1 s.res.q2) 5
  have read_2 := run_rd (s := { s with readData := s.res.q1 }) hbusy (.res 2) (instantiateForm s.res.q0 s.res.q1 s.res.q2) 4
  have form := run_instantiateForm (s := { s with readData := s.res.q2 }) hbusy s.res.q0 s.res.q1 s.res.q2
  exact read_0.trans (read_1.trans (read_2.trans form))

end Script

/-! ## The obligations -/

/-- Settles O39: the 32 bytes of the seed are what the command stores. -/
theorem extractResult : Obligations.ExtractResult := by
  intro s hlen d
  have run := exec_extract_of_data hlen
  rw [inputA_eq_map] at run
  generalize extractSeed cfgRef _ = seed at run ⊢
  have stores := StoresOnly.of_stored s s.drbg seed.toList .ok
  have seed_length : seed.toList.length = 32 := Vector.length_toList
  refine ⟨_, run, rfl, fun j => ?inside, fun a ha => ?beyond⟩
  case inside => exact (stores.readByte_out_stored (j.isLt.trans_eq seed_length.symm)).trans (Vector.getElem_toList _)
  case beyond => exact stores.readByte_out (seed_length.trans_le ha)

/-- Settles O40: each word of `RES` is the little-endian word of its eight bytes of the seed. -/
theorem extractU64Result : Obligations.ExtractU64Result := by
  intro s hlen d
  have run := exec_extractU64_of_data hlen
  rw [inputA_eq_map] at run
  refine ⟨_, run, rfl, fun i k => ?_⟩
  rw [quadGet_seedWords, seedWord_byte _ _ k.isLt]

/-- Settles O41: each of the conditions fails one of the command's checks. -/
theorem extractErrors : Obligations.ExtractErrors := by
  refine fun s dv ov => ⟨fun h => ?extract, fun h => ?extract_u64⟩
  case extract =>
    rw [exec_eq_command]
    exact extractCmd_of_invalid (by tauto)
  case extract_u64 =>
    rw [exec_eq_command]
    exact extractU64Cmd_of_invalid (by tauto)

/-- Settles O43: the words that the host carries over are the first three that EXTRACT_U64 left. -/
theorem seedInstantiatesTheGenerator : Obligations.SeedInstantiatesTheGenerator := by
  intro s t hlen ht
  rw [exec_extractU64_of_data hlen, inputA_eq_map] at ht
  obtain rfl := Host.Outcome.next.inj ht
  exact ⟨_, (run_seedInstantiate rfl).trans (exec_instantiate _), exec_instantiate _⟩

end Sys2Proof.Machine
end

section
/-! The statements on the precursor transform and the byte mixers (spec/43_seed_engine.md R106 to R109). The precursor is
taken block by block; a read inside a block is a read of the whole string at the block's offset, where only the last block
can be short and a read past its end is one past the end of the string. -/

namespace Sys2Proof.Machine

/-! ## The lengths (R106 to R109) -/

theorem precursorBlock_length (chunk : Bytes) : (precursorBlock chunk).length = chunk.length := by simp [precursorBlock]

/-- With a count that is enough for the string, no byte is dropped. -/
theorem precursorFrom_length {n : Nat} {p : Bytes} (h : p.length ≤ preBlock * n) :
    (precursorFrom n p).length = p.length := by
  induction n generalizing p with
  | zero =>
    rw [List.eq_nil_of_length_eq_zero (Nat.le_zero.mp h)]
    rfl
  | succ n ih =>
    have rest_fits : (p.drop preBlock).length ≤ preBlock * n := by
      rw [List.length_drop]
      rw [Nat.mul_succ] at h
      omega
    rw [precursorFrom, List.length_append, precursorBlock_length, ih rest_fits, ← List.length_append,
      List.take_append_drop]

theorem length_le_blocks (p : Bytes) : p.length ≤ preBlock * ((p.length + preBlock - 1) / preBlock) := by
  rw [preBlock]
  omega

theorem precursor_length (p : Bytes) : (precursor p).length = p.length := precursorFrom_length (length_le_blocks p)

theorem mixerA_length (buf : Bytes) : (mixerA buf).length = buf.length := by simp [mixerA]

theorem mixerB_length (buf : Bytes) : (mixerB buf).length = buf.length := by simp [mixerB]

theorem rmix_length (n : Nat) (buf : Bytes) : (rmix n buf).length = buf.length := by
  induction n generalizing buf with
  | zero => rw [rmix, mixerB_length, mixerA_length]
  | succ n ih =>
    rw [rmix]
    split
    · rw [mixerB_length, mixerA_length]
    · rw [mixerA_length, mixerB_length, List.length_append, ih, ih, ← List.length_append, List.take_append_drop]

/-! ## A byte of the precursor (R106) -/

/-- The index five places before `i` in its block, taken round. -/
def backIndex (i : Nat) : Nat := i / 256 * 256 + (i % 256 + 251) % 256

theorem backIndex_of_lt {i : Nat} (h : i < 256) :
    backIndex i < 256 ∧ (i + preBlock - preBack) % preBlock = backIndex i := by
  rw [backIndex, preBlock, preBack]
  omega

theorem backIndex_sub {i : Nat} (h : 256 ≤ i) : 256 + backIndex (i - 256) = backIndex i := by
  rw [backIndex, backIndex]
  omega

/-- What the precursor leaves at index `i`. -/
def precursorByte (p : Bytes) (i : Nat) : Byte := not8 (p.getD i 0) ^^^ p.getD (backIndex i) 0

theorem precursorBlock_getD {p : Bytes} {i : Nat} (hi : i < p.length) (hblock : i < 256) :
    (precursorBlock (p.take 256)).getD i 0 = precursorByte p i := by
  have inside : i < (p.take 256).length := by rw [List.length_take]; omega
  obtain ⟨back_lt, back_eq⟩ := backIndex_of_lt hblock
  have read {j : Nat} (hj : j < 256) : byteAt (p.take 256) j = p.getD j 0 := by
    rw [byteAt, List.getD_eq_getElem?_getD, List.getElem?_take_of_lt hj, List.getD_eq_getElem?_getD]
  rw [List.getD_eq_getElem _ _ (inside.trans_eq (precursorBlock_length _).symm)]
  simp only [precursorBlock, List.getElem_map, List.getElem_range, back_eq]
  rw [read hblock, read back_lt, precursorByte]

/-- Later blocks are transformed as the first of the rest of the string. -/
theorem precursorByte_drop (p : Bytes) {i : Nat} (h : 256 ≤ i) :
    precursorByte (p.drop 256) (i - 256) = precursorByte p i := by
  simp only [precursorByte, List.getD_eq_getElem?_getD, List.getElem?_drop, Nat.add_sub_cancel' h, backIndex_sub h]

theorem precursorFrom_getD {n i : Nat} {p : Bytes} (hn : p.length ≤ preBlock * n) (hi : i < p.length) :
    (precursorFrom n p).getD i 0 = precursorByte p i := by
  induction n generalizing p i with
  | zero => omega
  | succ n ih =>
    rw [preBlock, Nat.mul_succ] at hn
    have block_length : (precursorBlock (p.take 256)).length = min 256 p.length := by
      rw [precursorBlock_length, List.length_take]
    rw [precursorFrom, preBlock]
    rcases Nat.lt_or_ge i 256 with first_block | later_block
    · rw [List.getD_append _ _ _ _ (by omega), precursorBlock_getD hi first_block]
    · have whole_block : (precursorBlock (p.take 256)).length = 256 := by omega
      have rest_length : (p.drop 256).length = p.length - 256 := List.length_drop
      rw [List.getD_append_right _ _ _ _ (by omega), whole_block, ih (by rw [preBlock]; omega) (by omega),
        precursorByte_drop p later_block]

/-! ## The obligations -/

/-- Settles O57: every output byte has its own index, and the halves of a node of `rmix` keep their lengths. -/
theorem byteMixersKeepLength : Obligations.ByteMixersKeepLength := fun b n =>
  ⟨precursor_length b, mixerA_length b, mixerB_length b, rmix_length n b⟩

/-- Settles O58, block by block. -/
theorem precursorByteFormula : Obligations.PrecursorByteFormula := fun p _ hi => precursorFrom_getD (length_le_blocks p) hi

end Sys2Proof.Machine
end

section
/-! The token language (spec/43_seed_engine.md R101): what the splitters of `tokenParts` take from the text of a numeral, and
from any text. A numeral's text is cut into the numeral's own parts; what is cut from any text is again spelled by the parts
of a numeral; and a longer text never gives a shorter token. Together these say that the token of a text is its longest
numeral. -/

namespace Sys2Proof.Machine

/-! ## Characters -/

theorem isDigit_iff {c : Byte} : isDigit c = true ↔ 0x30 ≤ c.toNat ∧ c.toNat ≤ 0x39 := decide_eq_true_iff

theorem isSign_iff {c : Byte} : isSign c = true ↔ c = 0x2B ∨ c = 0x2D := by simp [isSign]

theorem isSign_of_isDigit {c : Byte} (h : isDigit c = true) : isSign c = false := by
  rw [Bool.eq_false_iff, ne_eq, isSign_iff]
  rintro (rfl | rfl) <;> exact absurd h (by decide)

theorem digitText_cons (x : Fin 10) (ds : List (Fin 10)) :
    digitText (x :: ds) = BitVec.ofNat 8 (0x30 + x.val) :: digitText ds := rfl

theorem digitText_append (ds es : List (Fin 10)) : digitText (ds ++ es) = digitText ds ++ digitText es := List.map_append

theorem digitText_eq_nil {ds : List (Fin 10)} : digitText ds = [] ↔ ds = [] := List.map_eq_nil_iff

theorem isDigit_digit : ∀ x : Fin 10, isDigit (BitVec.ofNat 8 (0x30 + x.val)) = true := by decide

theorem isDigit_of_mem_digitText {ds : List (Fin 10)} {c : Byte} (h : c ∈ digitText ds) : isDigit c = true := by
  obtain ⟨x, -, rfl⟩ := List.mem_map.mp h
  exact isDigit_digit x

/-- A string of digits is spelled by decimal digits. -/
theorem exists_digitText {b : Bytes} (h : ∀ c ∈ b, isDigit c = true) : ∃ ds, digitText ds = b := by
  induction b with
  | nil => exact ⟨[], rfl⟩
  | cons c b ih =>
    obtain ⟨ds, rfl⟩ := ih fun x hx => h x (List.mem_cons_of_mem c hx)
    have hc := isDigit_iff.mp (h c List.mem_cons_self)
    refine ⟨⟨c.toNat - 0x30, by omega⟩ :: ds, ?_⟩
    rw [digitText_cons, Nat.add_sub_cancel' hc.1, BitVec.ofNat_toNat, BitVec.setWidth_eq]

/-! ## The text of a numeral in its four parts -/

/-- The text of an optional fraction. -/
def fractionText : Option (List (Fin 10)) → Bytes
  | none => []
  | some f => 0x2E :: digitText f

/-- The letter of an exponent, `'E'` or `'e'`. -/
def exponentLetter (upper : Bool) : Byte := if upper then 0x45 else 0x65

/-- The text of an optional exponent. -/
def exponentText : Option NumeralExponent → Bytes
  | none => []
  | some e => exponentLetter e.upper :: (signText e.sign ++ digitText e.digits)

/-- The parts that the text of a numeral is to be cut into. -/
def Numeral.parts (n : Numeral) : TokenParts :=
  ⟨signText n.sign, digitText n.whole, fractionText n.fraction, exponentText n.exponent⟩

theorem Numeral.text_eq (n : Numeral) : n.text = tokenText n.parts := by
  obtain ⟨sg, whole, fr, ex⟩ := n
  cases fr <;> cases ex <;> rfl

theorem Numeral.valid_iff (n : Numeral) :
    n.valid = true ↔ n.whole ++ n.fractionDigits ≠ [] ∧ ∀ e ∈ n.exponent, e.digits ≠ [] := by
  obtain ⟨sg, whole, fr, ex⟩ := n
  cases ex <;> simp [Numeral.valid]

/-- The digits before and after the dot, in a row. -/
theorem Numeral.digitText_decimal (n : Numeral) :
    digitText (n.whole ++ n.fractionDigits) = n.parts.digits ++ n.parts.fraction.drop 1 := by
  obtain ⟨sg, whole, fr, ex⟩ := n
  cases fr with
  | none => rw [digitText_append]; rfl
  | some f => rw [digitText_append]; rfl

theorem exponentText_head {e : Option NumeralExponent} {c : Byte} (h : c ∈ (exponentText e).head?) :
    c = 0x65 ∨ c = 0x45 := by
  cases e with
  | none => cases h
  | some e =>
    obtain rfl := Option.some.inj h
    cases e.upper
    · exact .inl rfl
    · exact .inr rfl

theorem fraction_exponent_head {f : Option (List (Fin 10))} {e : Option NumeralExponent} {c : Byte}
    (h : c ∈ (fractionText f ++ exponentText e).head?) : c = 0x2E ∨ c = 0x65 ∨ c = 0x45 := by
  cases f with
  | none => exact .inr (exponentText_head h)
  | some f => exact .inl (Option.some.inj h).symm

/-! ## The text of a numeral is cut into the numeral's parts -/

theorem splitSign_signText (sg : Option Bool) {r : Bytes} (h : ∀ c ∈ r.head?, isSign c = false) :
    splitSign (signText sg ++ r) = (signText sg, r) := by
  match sg, r with
  | some true, _ => rfl
  | some false, _ => rfl
  | none, [] => rfl
  | none, c :: r =>
    have no_sign := h c rfl
    simp [signText, splitSign, no_sign]

theorem splitDigits_digitText (ds : List (Fin 10)) {r : Bytes} (h : ∀ c ∈ r.head?, isDigit c = false) :
    splitDigits (digitText ds ++ r) = (digitText ds, r) := by
  have digits : ∀ c ∈ digitText ds, isDigit c = true := fun _ => isDigit_of_mem_digitText
  have taken : r.takeWhile isDigit = [] ∧ r.dropWhile isDigit = r := by
    cases r with
    | nil => exact ⟨rfl, rfl⟩
    | cons c r => simp [h c rfl]
  rw [splitDigits, List.takeWhile_append_of_pos digits, List.dropWhile_append_of_pos digits, taken.1, taken.2,
    List.append_nil]

theorem splitDigits_digitText_only (ds : List (Fin 10)) : splitDigits (digitText ds) = (digitText ds, []) := by
  simpa using splitDigits_digitText ds (r := []) (by simp)

theorem splitFraction_fractionText (f : Option (List (Fin 10))) {r : Bytes} (hdigit : ∀ c ∈ r.head?, isDigit c = false)
    (hdot : ∀ c ∈ r.head?, c ≠ 0x2E) : splitFraction (fractionText f ++ r) = (fractionText f, r) := by
  match f, r with
  | some f, r => simp [fractionText, splitFraction, splitDigits_digitText f hdigit]
  | none, [] => rfl
  | none, c :: r =>
    have no_dot : (c == 0x2E) = false := beq_eq_false_iff_ne.mpr (hdot c rfl)
    rw [fractionText, List.nil_append, splitFraction, no_dot]
    rfl

theorem digitText_head_not_sign {ds : List (Fin 10)} {r : Bytes} (hr : ∀ c ∈ r.head?, isSign c = false) :
    ∀ c ∈ (digitText ds ++ r).head?, isSign c = false := by
  cases ds with
  | nil => exact hr
  | cons x ds =>
    intro c hc
    obtain rfl := Option.some.inj hc
    exact isSign_of_isDigit (isDigit_digit x)

/-- The sign and the digits of an exponent are cut apart. -/
theorem splitSign_exponentDigits (e : NumeralExponent) :
    splitSign (signText e.sign ++ digitText e.digits) = (signText e.sign, digitText e.digits) := by
  have head := digitText_head_not_sign (ds := e.digits) (r := []) (by simp)
  rw [List.append_nil] at head
  exact splitSign_signText e.sign head

theorem splitExponent_cons (c : Byte) (b : Bytes) :
    splitExponent (c :: b) =
      if c == 0x65 || c == 0x45 then
        if (splitDigits (splitSign b).2).1 = [] then ([], c :: b)
        else (c :: ((splitSign b).1 ++ (splitDigits (splitSign b).2).1), (splitDigits (splitSign b).2).2)
      else ([], c :: b) := rfl

theorem splitExponent_exponentText {e : Option NumeralExponent} (h : ∀ x ∈ e, x.digits ≠ []) :
    splitExponent (exponentText e) = (exponentText e, []) := by
  cases e with
  | none => rfl
  | some e =>
    have complete : digitText e.digits ≠ [] := mt digitText_eq_nil.mp (h e rfl)
    have letter : (exponentLetter e.upper == 0x65 || exponentLetter e.upper == 0x45) = true := by cases e.upper <;> rfl
    rw [exponentText, splitExponent_cons, if_pos letter, splitSign_exponentDigits, splitDigits_digitText_only,
      if_neg complete]

theorem tokenParts_text {n : Numeral} (h : n.valid = true) : tokenParts n.text = n.parts := by
  obtain ⟨-, hexp⟩ := n.valid_iff.mp h
  have after_digits : ∀ c ∈ (fractionText n.fraction ++ exponentText n.exponent).head?,
      isSign c = false ∧ isDigit c = false := by
    intro c hc
    rcases fraction_exponent_head hc with rfl | rfl | rfl <;> exact ⟨rfl, rfl⟩
  have after_fraction : ∀ c ∈ (exponentText n.exponent).head?, isDigit c = false ∧ c ≠ 0x2E := by
    intro c hc
    rcases exponentText_head hc with rfl | rfl <;> exact ⟨rfl, by decide⟩
  have sign := splitSign_signText n.sign
    (digitText_head_not_sign (ds := n.whole) fun c hc => (after_digits c hc).1)
  have digits := splitDigits_digitText n.whole fun c hc => (after_digits c hc).2
  have fraction := splitFraction_fractionText n.fraction (fun c hc => (after_fraction c hc).1)
    fun c hc => (after_fraction c hc).2
  rw [n.text_eq, tokenText, Numeral.parts, List.append_assoc, List.append_assoc]
  simp only [tokenParts, sign, digits, fraction, splitExponent_exponentText hexp]

/-! ## What is cut from any text is spelled by a numeral's parts -/

theorem exists_signText (b : Bytes) : ∃ sg, signText sg = (splitSign b).1 := by
  cases b with
  | nil => exact ⟨none, rfl⟩
  | cons c b =>
    rw [splitSign]
    split
    · rename_i hc
      rcases isSign_iff.mp hc with rfl | rfl
      · exact ⟨some false, rfl⟩
      · exact ⟨some true, rfl⟩
    · exact ⟨none, rfl⟩

theorem exists_digitText_splitDigits (b : Bytes) : ∃ ds, digitText ds = (splitDigits b).1 :=
  exists_digitText fun _ hc => List.mem_takeWhile_imp hc

theorem exists_fractionText (b : Bytes) : ∃ f, fractionText f = (splitFraction b).1 := by
  cases b with
  | nil => exact ⟨none, rfl⟩
  | cons c b =>
    rw [splitFraction]
    split
    · rename_i hc
      obtain ⟨ds, hds⟩ := exists_digitText_splitDigits b
      exact ⟨some ds, by rw [fractionText, hds, beq_iff_eq.mp hc]⟩
    · exact ⟨none, rfl⟩

theorem exists_exponentText (b : Bytes) :
    ∃ e, exponentText e = (splitExponent b).1 ∧ ∀ x ∈ e, x.digits ≠ [] := by
  have absent : ∃ e, exponentText e = [] ∧ ∀ x ∈ e, x.digits ≠ [] := ⟨none, rfl, by simp⟩
  cases b with
  | nil => exact absent
  | cons c b =>
    rw [splitExponent_cons]
    split
    · rename_i hc
      split
      · exact absent
      · rename_i complete
        obtain ⟨sg, hsg⟩ := exists_signText b
        obtain ⟨ds, hds⟩ := exists_digitText_splitDigits (splitSign b).2
        have letter : exponentLetter (c == 0x45) = c := by
          rcases Bool.or_eq_true_iff.mp hc with h | h <;> rw [beq_iff_eq.mp h] <;> rfl
        refine ⟨some ⟨c == 0x45, sg, ds⟩, ?_, ?_⟩
        · rw [exponentText, letter, hsg, hds]
        · rintro x ⟨⟩ rfl
          exact complete hds.symm
    · exact absent

/-- Any text is cut into the parts of a numeral, which is valid if there is a digit before or after the dot. -/
theorem exists_numeral_parts (w : Bytes) :
    ∃ n : Numeral, n.parts = tokenParts w ∧
      ((tokenParts w).digits ++ (tokenParts w).fraction.drop 1 ≠ [] → n.valid = true) := by
  obtain ⟨sg, hsg⟩ := exists_signText w
  obtain ⟨ds, hds⟩ := exists_digitText_splitDigits (splitSign w).2
  obtain ⟨fr, hfr⟩ := exists_fractionText (splitDigits (splitSign w).2).2
  obtain ⟨ex, hex, complete⟩ := exists_exponentText (splitFraction (splitDigits (splitSign w).2).2).2
  have parts_eq : (Numeral.mk sg ds fr ex).parts = tokenParts w := by rw [Numeral.parts, hsg, hds, hfr, hex]; rfl
  refine ⟨⟨sg, ds, fr, ex⟩, parts_eq, fun has_digit => (Numeral.valid_iff _).mpr ⟨?_, complete⟩⟩
  rwa [← parts_eq, ← Numeral.digitText_decimal, ne_eq, digitText_eq_nil] at has_digit

/-! ## The bytes of a numeral -/

theorem Numeral.exists_digit_mem_text {n : Numeral} (h : n.valid = true) : ∃ c ∈ n.text, isDigit c = true := by
  obtain ⟨has_digit, -⟩ := n.valid_iff.mp h
  obtain ⟨c, hc⟩ := List.exists_mem_of_ne_nil _ (mt digitText_eq_nil.mp has_digit)
  refine ⟨c, ?_, isDigit_of_mem_digitText hc⟩
  rw [Numeral.digitText_decimal, List.mem_append] at hc
  rw [n.text_eq, tokenText]
  simp only [List.mem_append]
  exact hc.elim (fun h => .inl (.inl (.inr h))) fun h => .inl (.inr (List.mem_of_mem_drop h))

theorem newline_not_mem_digitText (ds : List (Fin 10)) : 0x0A#8 ∉ digitText ds := fun h =>
  absurd (isDigit_of_mem_digitText h) (by decide)

theorem newline_not_mem_signText (sg : Option Bool) : 0x0A#8 ∉ signText sg := by
  rcases sg with _ | _ | _ <;> decide

theorem Numeral.newline_not_mem_text (n : Numeral) : 0x0A#8 ∉ n.text := by
  have fraction : 0x0A#8 ∉ fractionText n.fraction := by
    cases n.fraction with
    | none => exact List.not_mem_nil
    | some f => exact List.not_mem_cons_of_ne_of_not_mem (by decide) (newline_not_mem_digitText f)
  have exponent : 0x0A#8 ∉ exponentText n.exponent := by
    cases n.exponent with
    | none => exact List.not_mem_nil
    | some e =>
      refine List.not_mem_cons_of_ne_of_not_mem (by cases e.upper <;> decide) ?_
      exact List.not_mem_append (newline_not_mem_signText e.sign) (newline_not_mem_digitText e.digits)
  rw [n.text_eq]
  exact List.not_mem_append (List.not_mem_append (List.not_mem_append (newline_not_mem_signText _)
    (newline_not_mem_digitText _)) fraction) exponent

/-! ## A token is the head of its text -/

theorem splitSign_append (b : Bytes) : (splitSign b).1 ++ (splitSign b).2 = b := by
  cases b with
  | nil => rfl
  | cons c b => rw [splitSign]; split <;> rfl

theorem splitDigits_append (b : Bytes) : (splitDigits b).1 ++ (splitDigits b).2 = b := List.takeWhile_append_dropWhile

theorem splitFraction_append (b : Bytes) : (splitFraction b).1 ++ (splitFraction b).2 = b := by
  cases b with
  | nil => rfl
  | cons c b =>
    rw [splitFraction]
    split
    · exact congrArg (c :: ·) (splitDigits_append b)
    · rfl

theorem splitExponent_append (b : Bytes) : (splitExponent b).1 ++ (splitExponent b).2 = b := by
  cases b with
  | nil => rfl
  | cons c b =>
    rw [splitExponent_cons]
    split
    · split
      · rfl
      · rw [List.cons_append, List.append_assoc, splitDigits_append, splitSign_append]
    · rfl

theorem tokenText_prefix (w : Bytes) : tokenText (tokenParts w) <+: w := by
  refine ⟨(splitExponent (splitFraction (splitDigits (splitSign w).2).2).2).2, ?_⟩
  simp only [tokenText, tokenParts, List.append_assoc, splitExponent_append, splitFraction_append, splitDigits_append,
    splitSign_append]

/-! ## A longer text never gives a shorter token (R101, greediness) -/

/-- The first cut is as the second with a shorter rest, or it takes no more and has come to the end of its text. -/
def CutWithin (a b : Bytes × Bytes) : Prop := (a.1 = b.1 ∧ a.2 <+: b.2) ∨ (a.2 = [] ∧ a.1.length ≤ b.1.length)

theorem CutWithin.cons {a b : Bytes × Bytes} (c : Byte) (h : CutWithin a b) : CutWithin (c :: a.1, a.2) (c :: b.1, b.2) :=
  h.imp (fun ⟨same, rest⟩ => ⟨congrArg (c :: ·) same, rest⟩) fun ⟨ended, shorter⟩ =>
    ⟨ended, Nat.succ_le_succ shorter⟩

/-- On the head of a longer text the splitter does what it does on the longer one, unless it comes to its end. -/
def Greedy (f : Bytes → Bytes × Bytes) : Prop := ∀ u w : Bytes, u <+: w → CutWithin (f u) (f w)

theorem Greedy.of_cons {f : Bytes → Bytes × Bytes} (hnil : f [] = ([], []))
    (hcons : ∀ (c : Byte) (u w : Bytes), u <+: w → CutWithin (f (c :: u)) (f (c :: w))) : Greedy f := by
  intro u w h
  cases u with
  | nil => rw [hnil]; exact .inr ⟨rfl, Nat.zero_le _⟩
  | cons c u =>
    obtain ⟨w, rfl, hrest⟩ := List.cons_prefix_iff.mp h
    exact hcons c u w hrest

theorem greedy_splitSign : Greedy splitSign := by
  refine .of_cons rfl fun c u w h => .inl ?_
  rw [splitSign, splitSign]
  split
  · exact ⟨rfl, h⟩
  · exact ⟨rfl, List.prefix_cons_inj c |>.mpr h⟩

theorem splitDigits_cons (c : Byte) (b : Bytes) :
    splitDigits (c :: b) = if isDigit c then (c :: (splitDigits b).1, (splitDigits b).2) else ([], c :: b) := by
  cases hc : isDigit c <;> simp [splitDigits, hc]

theorem greedy_splitDigits : Greedy splitDigits := by
  intro u
  induction u with
  | nil => exact fun w _ => .inr ⟨rfl, Nat.zero_le _⟩
  | cons c u ih =>
    intro w h
    obtain ⟨w, rfl, hrest⟩ := List.cons_prefix_iff.mp h
    rw [splitDigits_cons, splitDigits_cons]
    split
    · exact (ih w hrest).cons c
    · exact .inl ⟨rfl, h⟩

theorem greedy_splitFraction : Greedy splitFraction := by
  refine .of_cons rfl fun c u w h => ?_
  rw [splitFraction, splitFraction]
  split
  · exact (greedy_splitDigits u w h).cons c
  · exact .inl ⟨rfl, List.prefix_cons_inj c |>.mpr h⟩

/-- What a greedy splitter takes, and what is taken from the rest after it, is no shorter on a longer text. -/
theorem Greedy.length_le {f : Bytes → Bytes × Bytes} (hf : Greedy f) {g : Bytes → Nat} (hnil : g [] = 0)
    (hg : ∀ u w, u <+: w → g u ≤ g w) (u w : Bytes) (h : u <+: w) :
    (f u).1.length + g (f u).2 ≤ (f w).1.length + g (f w).2 := by
  rcases hf u w h with ⟨same, rest⟩ | ⟨ended, shorter⟩
  · rw [same]
    exact Nat.add_le_add_left (hg _ _ rest) _
  · rw [ended, hnil]
    exact shorter.trans (Nat.le_add_right _ _)

theorem splitExponent_length_le (u w : Bytes) (h : u <+: w) :
    (splitExponent u).1.length ≤ (splitExponent w).1.length := by
  cases u with
  | nil => exact Nat.zero_le _
  | cons c u =>
    obtain ⟨w, rfl, hrest⟩ := List.cons_prefix_iff.mp h
    rw [splitExponent_cons, splitExponent_cons]
    split
    · split
      · exact Nat.zero_le _
      · rename_i complete
        rcases greedy_splitSign u w hrest with ⟨same, rest⟩ | ⟨ended, -⟩
        · have digits : (splitDigits (splitSign u).2).1.length ≤ (splitDigits (splitSign w).2).1.length :=
            greedy_splitDigits.length_le (g := fun _ => 0) rfl (fun _ _ _ => le_rfl) _ _ rest
          have complete_too : (splitDigits (splitSign w).2).1 ≠ [] := by
            rw [← ne_eq, ← List.length_pos_iff] at complete
            exact List.length_pos_iff.mp (complete.trans_le digits)
          rw [if_neg complete_too, same]
          simpa using digits
        · rw [ended] at complete
          exact absurd rfl complete
    · exact le_rfl

theorem tokenText_length_le {u w : Bytes} (h : u <+: w) :
    (tokenText (tokenParts u)).length ≤ (tokenText (tokenParts w)).length := by
  have from_fraction := greedy_splitFraction.length_le rfl splitExponent_length_le
  have from_digits := greedy_splitDigits.length_le rfl from_fraction
  have from_sign := greedy_splitSign.length_le rfl from_digits u w h
  simpa only [tokenText, tokenParts, List.length_append, Nat.add_assoc] using from_sign

/-- No numeral at the head of a text is longer than the text's token. -/
theorem Numeral.length_le_tokenText {n : Numeral} (hn : n.valid = true) {w : Bytes} (h : n.text <+: w) :
    n.text.length ≤ (tokenText (tokenParts w)).length := by
  have own_token : tokenText (tokenParts n.text) = n.text := by rw [tokenParts_text hn, n.text_eq]
  exact own_token ▸ tokenText_length_le h

end Sys2Proof.Machine
end

section
/-! The statement on the numeric scan (spec/43_seed_engine.md R101, R103). What the scan has found from a position on is an
invariant of the string alone, `ScansFrom`; a round of the scan extends it to the left, by a byte where no token starts or by
a whole token. -/

namespace Sys2Proof.Machine

/-! ## Where a token starts -/

theorem digitAt_iff {d : Bytes} {i : Nat} : DigitAt d i ↔ ∃ c ∈ (d.drop i).head?, isDigit c = true := by
  simp only [DigitAt, List.head?_drop, Option.mem_def, isDigit_iff]

theorem startsToken_iff {c : Byte} {rest : Bytes} :
    startsToken c rest = true ↔
      isDigit c = true ∨ ((isSign c = true ∨ c = 0x2E) ∧ ∃ x ∈ rest.head?, isDigit x = true) := by
  cases rest <;> simp [startsToken]

/-- The scan's own test is the start condition (R101). -/
theorem startsAt_iff {d : Bytes} {i : Nat} {c : Byte} {rest : Bytes} (h : d.drop i = c :: rest) :
    StartsAt d i ↔ startsToken c rest = true := by
  have here : d[i]? = some c := by rw [← List.head?_drop, h]; rfl
  have rest_eq : d.drop (i + 1) = rest := by rw [← List.drop_drop, h]; rfl
  rw [StartsAt, digitAt_iff, digitAt_iff, h, rest_eq, here, startsToken_iff, isSign_iff]
  simp [or_assoc]

theorem exists_cons_of_startsAt {d : Bytes} {i : Nat} (h : StartsAt d i) :
    ∃ c rest, d.drop i = c :: rest ∧ startsToken c rest = true := by
  cases hdrop : d.drop i with
  | cons c rest => exact ⟨c, rest, rfl, (startsAt_iff hdrop).mp h⟩
  | nil =>
    have beyond : d[i]? = none := List.getElem?_eq_none (List.drop_eq_nil_iff.mp hdrop)
    simp [StartsAt, DigitAt, beyond] at h

theorem startsToken_newline (rest : Bytes) : startsToken 0x0A#8 rest = false := rfl

/-- The cap leaves the two bytes that the start condition looks at. -/
theorem startsToken_take (c : Byte) (rest : Bytes) : startsToken c (rest.take 58) = startsToken c rest := by
  cases rest <;> rfl

/-! ## The token at a position -/

/-- The token at the head of a string, whose window is capped (R101). -/
def tokenOf (b : Bytes) : Bytes := tokenText (tokenParts (b.take tokenCap))

theorem tokenOf_prefix_window (b : Bytes) : tokenOf b <+: b.take 59 := tokenText_prefix _

/-- Where the start condition holds there is a digit before or after the dot. -/
theorem decimal_ne_nil_of_startsToken {c : Byte} {rest : Bytes} (h : startsToken c rest = true) :
    (tokenParts (c :: rest)).digits ++ (tokenParts (c :: rest)).fraction.drop 1 ≠ [] := by
  have digit_first {x : Byte} {b : Bytes} (hx : isDigit x = true) : (splitDigits (x :: b)).1 ≠ [] := by
    rw [splitDigits_cons, if_pos hx]
    exact fun hnil => nomatch hnil
  have unsigned {x : Byte} {b : Bytes} (hx : isSign x = false) : splitSign (x :: b) = ([], x :: b) := by
    rw [splitSign, hx]
    rfl
  rcases startsToken_iff.mp h with hdigit | ⟨mark, x, hx, next_digit⟩
  · rw [tokenParts, unsigned (isSign_of_isDigit hdigit)]
    exact List.append_ne_nil_of_left_ne_nil (digit_first hdigit) _
  · obtain ⟨rest, rfl⟩ := List.head?_eq_some_iff.mp hx
    rcases mark with hsign | rfl
    · rw [tokenParts, splitSign, if_pos hsign]
      exact List.append_ne_nil_of_left_ne_nil (digit_first next_digit) _
    · exact List.append_ne_nil_of_right_ne_nil _ (digit_first next_digit)

/-- The token at a start is the text of a valid numeral. -/
theorem exists_numeral_tokenOf {c : Byte} {rest : Bytes} (h : startsToken c rest = true) :
    ∃ n : Numeral, n.valid = true ∧ n.text = tokenOf (c :: rest) := by
  have window : (c :: rest).take tokenCap = c :: rest.take 58 := rfl
  obtain ⟨n, hparts, hvalid⟩ := exists_numeral_parts (c :: rest.take 58)
  rw [← startsToken_take] at h
  exact ⟨n, hvalid (decimal_ne_nil_of_startsToken h), by rw [n.text_eq, hparts, tokenOf, window]⟩

/-! ## What the scan finds -/

/-- The token of R101 that starts at `t.offset`, with its line. -/
structure IsTokenOf (d : Bytes) (t : Token) : Prop where
  starts : StartsAt d t.offset
  text : t.text = tokenOf (d.drop t.offset)
  line : t.line = 1 + (d.take t.offset).count 0x0A#8

/-- `ts` are the tokens of `d` from position `i` on: real ones, one after the other, and none is missing. -/
structure ScansFrom (d : Bytes) (i : Nat) (ts : List Token) : Prop where
  found : ∀ t ∈ ts, i ≤ t.offset ∧ IsTokenOf d t
  apart : ts.Pairwise fun t u => t.offset + t.text.length ≤ u.offset
  complete : ∀ j, i ≤ j → StartsAt d j → ∃ t ∈ ts, t.offset ≤ j ∧ j < t.offset + t.text.length

section IsTokenOf

variable {d : Bytes} {t : Token} (h : IsTokenOf d t)
include h

theorem IsTokenOf.exists_numeral : ∃ n : Numeral, n.valid = true ∧ n.text = t.text := by
  obtain ⟨c, rest, hdrop, hstart⟩ := exists_cons_of_startsAt h.starts
  rw [h.text, hdrop]
  exact exists_numeral_tokenOf hstart

theorem IsTokenOf.newline_not_mem : 0x0A#8 ∉ t.text := by
  obtain ⟨n, -, hn⟩ := h.exists_numeral
  exact hn ▸ n.newline_not_mem_text

theorem IsTokenOf.exists_digit : ∃ c ∈ t.text, isDigit c = true := by
  obtain ⟨n, hvalid, hn⟩ := h.exists_numeral
  exact hn ▸ Numeral.exists_digit_mem_text hvalid

theorem IsTokenOf.length_pos : 1 ≤ t.text.length := by
  obtain ⟨c, hc, -⟩ := h.exists_digit
  exact List.length_pos_of_mem hc

theorem IsTokenOf.prefix_window : t.text <+: (d.drop t.offset).take 59 := h.text ▸ tokenOf_prefix_window _

theorem IsTokenOf.length_le : t.text.length ≤ 59 := h.prefix_window.length_le.trans (List.length_take_le ..)

theorem IsTokenOf.text_eq_take : t.text = (d.drop t.offset).take t.text.length :=
  List.prefix_iff_eq_take.mp (h.prefix_window.trans (List.take_prefix ..))

theorem IsTokenOf.inside : t.offset + t.text.length ≤ d.length := by
  have fits := (h.prefix_window.trans (List.take_prefix ..)).length_le
  have pos := h.length_pos
  rw [List.length_drop] at fits
  omega

/-- A token's bytes are counted for no line. -/
theorem IsTokenOf.count_after :
    (d.take (t.offset + t.text.length)).count 0x0A#8 = (d.take t.offset).count 0x0A#8 := by
  rw [List.take_add, ← h.text_eq_take, List.count_append, List.count_eq_zero.mpr h.newline_not_mem, Nat.add_zero]

end IsTokenOf

section ScansFrom

variable {d : Bytes} {i : Nat} {ts : List Token}

theorem ScansFrom.nil (h : d.length ≤ i) : ScansFrom d i [] where
  found := by simp
  apart := .nil
  complete j hj hstart := by
    obtain ⟨c, rest, hdrop, -⟩ := exists_cons_of_startsAt hstart
    rw [List.drop_eq_nil_of_le (h.trans hj)] at hdrop
    cases hdrop

/-- A round of the scan at a byte where no token starts. -/
theorem ScansFrom.skip (hstart : ¬StartsAt d i) (h : ScansFrom d (i + 1) ts) : ScansFrom d i ts where
  found t ht := ⟨Nat.le_of_succ_le (h.found t ht).1, (h.found t ht).2⟩
  apart := h.apart
  complete j hj hj_starts := by
    have not_here : i ≠ j := fun hij => hstart (hij ▸ hj_starts)
    exact h.complete j (Nat.lt_of_le_of_ne hj not_here) hj_starts

/-- A round of the scan at a token. -/
theorem ScansFrom.cons {t : Token} (ht : IsTokenOf d t) (h : ScansFrom d (t.offset + t.text.length) ts) :
    ScansFrom d t.offset (t :: ts) where
  found := by
    rw [List.forall_mem_cons]
    exact ⟨⟨le_rfl, ht⟩, fun u hu => ⟨(Nat.le_add_right ..).trans (h.found u hu).1, (h.found u hu).2⟩⟩
  apart := List.pairwise_cons.mpr ⟨fun u hu => (h.found u hu).1, h.apart⟩
  complete j hj hj_starts := by
    rcases Nat.lt_or_ge j (t.offset + t.text.length) with inside | after
    · exact ⟨t, List.mem_cons_self, hj, inside⟩
    · obtain ⟨u, hu, covers⟩ := h.complete j after hj_starts
      exact ⟨u, List.mem_cons_of_mem t hu, covers⟩

end ScansFrom

/-- The count of newlines before the byte after `c`. -/
theorem count_take_succ {d : Bytes} {i : Nat} {c : Byte} {rest : Bytes} (h : d.drop i = c :: rest) :
    (d.take (i + 1)).count 0x0A#8 = (d.take i).count 0x0A#8 + if c = 0x0A#8 then 1 else 0 := by
  rw [List.take_add, h, List.count_append]
  simp [List.count_singleton]

/-- One round of the scan (R101). -/
theorem scanFrom_cons (n : Nat) (c : Byte) (rest : Bytes) (i line : Nat) :
    scanFrom (n + 1) (c :: rest) i line =
      if c = 0x0A#8 then scanFrom n rest (i + 1) (line + 1)
      else if startsToken c rest then
        ⟨i, line, tokenOf (c :: rest)⟩ ::
          scanFrom n ((c :: rest).drop (tokenOf (c :: rest)).length) (i + (tokenOf (c :: rest)).length) line
      else scanFrom n rest (i + 1) line := rfl

/-- The scan from position `i`, on the line that the newlines before it give, with a count that reaches the end. -/
theorem scanFrom_scansFrom {d : Bytes} (n i line : Nat) (hcount : d.length ≤ i + n)
    (hline : line = 1 + (d.take i).count 0x0A#8) : ScansFrom d i (scanFrom n (d.drop i) i line) := by
  induction n generalizing i line with
  | zero => exact .nil hcount
  | succ n ih =>
    cases hdrop : d.drop i with
    | nil => exact .nil (List.drop_eq_nil_iff.mp hdrop)
    | cons c rest =>
      have rest_eq : d.drop (i + 1) = rest := by rw [← List.drop_drop, hdrop]; rfl
      have starts_iff := startsAt_iff hdrop
      have newlines := count_take_succ hdrop
      rw [scanFrom_cons, ← hdrop, List.drop_drop, ← rest_eq]
      rw [← rest_eq] at starts_iff
      split_ifs with newline starts
      · subst newline
        refine .skip (by simp [starts_iff, startsToken_newline]) (ih _ _ (by omega) ?_)
        rw [newlines, hline, if_pos rfl, Nat.add_assoc]
      · have token : IsTokenOf d ⟨i, line, tokenOf (d.drop i)⟩ := ⟨starts_iff.mpr starts, rfl, hline⟩
        have pos : 1 ≤ (tokenOf (d.drop i)).length := token.length_pos
        have reaches : d.length ≤ i + (tokenOf (d.drop i)).length + n := by omega
        exact .cons token (ih _ _ reaches (hline.trans (by rw [← token.count_after])))
      · refine .skip (mt starts_iff.mp starts) (ih _ _ (by omega) ?_)
        rw [newlines, hline, if_neg newline, Nat.add_zero]

theorem scanTokens_scansFrom (d : Bytes) : ScansFrom d 0 (scanTokens d) :=
  scanFrom_scansFrom d.length 0 1 (Nat.le_add_left ..) rfl

/-! ## The obligation -/

/-- Settles O55: the invariant at the string's start, and what it is to be a token of the string. -/
theorem scannedTokens : Obligations.ScannedTokens := by
  intro d
  have scan := scanTokens_scansFrom d
  refine ⟨fun t ht => ?_, scan.apart, fun i hi => scan.complete i (Nat.zero_le i) hi⟩
  obtain ⟨-, token⟩ := scan.found t ht
  refine ⟨token.text_eq_take, token.inside, token.length_pos, token.length_le, token.exists_digit, token.newline_not_mem,
    token.line, token.starts, token.exists_numeral, fun n hn hprefix => ?_⟩
  rw [token.text]
  exact Numeral.length_le_tokenText hn hprefix

end Sys2Proof.Machine
end

section
/-! The roundings of `ParseDec` (spec/43_seed_engine.md R102; the format of binary64 is log entry 12). The
encodings with sign bit 0 rise with the numbers they stand for, so the nearest of them to a number is one of the two that it
lies between; which of the two, `roundHalfEven` decides by the same comparison and the same parity. Beyond the largest
finite number the same holds of the encoding of infinity, read as the next power of two. -/

namespace Sys2Proof.Machine

/-! ## The numbers that the encodings stand for -/

/-- `m` units of the scale `e`, where only the lowest scale has significands without the leading bit; `m` may be the power
of two that carries into the next scale. -/
theorem binary64Value_of_significand {e m : ℕ} (hlead : e = 0 ∨ 2 ^ 52 ≤ m) (hm : m ≤ 2 ^ 53) :
    binary64Value (e * 2 ^ 52 + m) = m * 2 ^ ((e : ℤ) - 1074) := by
  rcases Nat.lt_or_ge m (2 ^ 52) with subnormal | leading
  · obtain rfl : e = 0 := by omega
    rw [binary64Value, if_pos (by omega), Nat.zero_mul, Nat.zero_add, Nat.mod_eq_of_lt subnormal]
    rfl
  · rcases hm.lt_or_eq with below | rfl
    · have exponent : (e * 2 ^ 52 + m) / 2 ^ 52 = e + 1 := by omega
      have significand : 2 ^ 52 + (e * 2 ^ 52 + m) % 2 ^ 52 = m := by omega
      rw [binary64Value, if_neg (by omega), exponent, significand]
      congr 2
      push_cast
      ring
    · have exponent : (e * 2 ^ 52 + 2 ^ 53) / 2 ^ 52 = e + 2 := by omega
      have significand : 2 ^ 52 + (e * 2 ^ 52 + 2 ^ 53) % 2 ^ 52 = 2 ^ 52 := by omega
      have carried : ((e + 2 : ℕ) : ℤ) - 1075 = ((e : ℤ) - 1074) + 1 := by push_cast; ring
      rw [binary64Value, if_neg (by omega), exponent, significand, carried, zpow_add_one₀ (by norm_num)]
      push_cast
      ring

theorem exists_significand (b : ℕ) :
    ∃ e m, b = e * 2 ^ 52 + m ∧ (e = 0 ∨ 2 ^ 52 ≤ m) ∧ m + 1 ≤ 2 ^ 53 := by
  rcases Nat.lt_or_ge b (2 ^ 52) with subnormal | normal
  · exact ⟨0, b, by omega, .inl rfl, by omega⟩
  · exact ⟨b / 2 ^ 52 - 1, 2 ^ 52 + b % 2 ^ 52, by omega, .inr (by omega), by omega⟩

theorem binary64Value_strictMono : StrictMono binary64Value := by
  refine strictMono_nat_of_lt_succ fun b => ?_
  obtain ⟨e, m, rfl, hlead, hm⟩ := exists_significand b
  rw [Nat.add_assoc, binary64Value_of_significand hlead (by omega),
    binary64Value_of_significand (hlead.imp_right (by omega)) hm]
  have unit_pos : (0 : ℚ) < 2 ^ ((e : ℤ) - 1074) := by positivity
  exact mul_lt_mul_of_pos_right (by push_cast; linarith) unit_pos

/-! ## Rounding between neighbours -/

/-- `x` lies between two neighbouring encodings, and `b` is the nearer one, of two equally near the even one. -/
def RoundsTo (x : ℚ) (b : ℕ) : Prop :=
  ∃ lo, binary64Value lo ≤ x ∧ x < binary64Value (lo + 1) ∧
    b = if binary64Value lo + binary64Value (lo + 1) < 2 * x ∨
        (binary64Value lo + binary64Value (lo + 1) = 2 * x ∧ lo % 2 = 1) then lo + 1 else lo

section RoundsTo

variable {x : ℚ} {b : ℕ} (h : RoundsTo x b)
include h

/-- No encoding is nearer than `b`, and one as near means that `b` is even. -/
theorem RoundsTo.nearest (c : ℕ) :
    |x - binary64Value b| ≤ |x - binary64Value c| ∧
      (|x - binary64Value b| = |x - binary64Value c| → c = b ∨ b % 2 = 0) := by
  obtain ⟨lo, hlo, hhi, rfl⟩ := h
  have below_lo : |x - binary64Value lo| = x - binary64Value lo := abs_of_nonneg (by linarith)
  have above_hi : |x - binary64Value (lo + 1)| = binary64Value (lo + 1) - x := by
    rw [abs_sub_comm]
    exact abs_of_nonneg (by linarith)
  have same {a : ℕ} (ha : binary64Value c = binary64Value a) : c = a := binary64Value_strictMono.injective ha
  rcases Nat.lt_or_ge lo c with c_above | c_below
  · have mono : binary64Value (lo + 1) ≤ binary64Value c := binary64Value_strictMono.monotone c_above
    have dist : |x - binary64Value c| = binary64Value c - x := by
      rw [abs_sub_comm]
      exact abs_of_nonneg (by linarith)
    split_ifs with upper
    · rw [above_hi, dist]
      exact ⟨by linarith, fun equal => .inl (same (by linarith))⟩
    · rw [not_or, not_lt, not_and] at upper
      obtain ⟨not_above, tie_even⟩ := upper
      rw [below_lo, dist]
      refine ⟨by linarith, fun equal => .inr ?_⟩
      have not_odd := tie_even (by linarith)
      omega
  · have mono : binary64Value c ≤ binary64Value lo := binary64Value_strictMono.monotone c_below
    have dist : |x - binary64Value c| = x - binary64Value c := abs_of_nonneg (by linarith)
    split_ifs with upper
    · rw [above_hi, dist]
      rcases upper with nearer | ⟨tie, odd⟩
      · exact ⟨by linarith, fun equal => by linarith⟩
      · exact ⟨by linarith, fun _ => .inr (by omega)⟩
    · rw [below_lo, dist]
      exact ⟨by linarith, fun equal => .inl (same (by linarith))⟩

/-- Above an odd encoding `k` lies what rounds from half a unit above `k` on. -/
theorem RoundsTo.succ_le_iff {k : ℕ} (hk : k % 2 = 1) :
    k + 1 ≤ b ↔ binary64Value k + binary64Value (k + 1) ≤ 2 * x := by
  obtain ⟨lo, hlo, hhi, rfl⟩ := h
  have step : binary64Value k < binary64Value (k + 1) := binary64Value_strictMono k.lt_succ_self
  rcases lt_trichotomy lo k with lower | rfl | higher
  · have mono : binary64Value (lo + 1) ≤ binary64Value k := binary64Value_strictMono.monotone lower
    refine iff_of_false ?_ (by linarith)
    split_ifs <;> omega
  · rw [le_iff_lt_or_eq (a := binary64Value lo + _)]
    split_ifs with upper
    · exact iff_of_true le_rfl (upper.imp_right And.left)
    · exact iff_of_false (by omega) fun reached => upper (reached.imp_right fun tie => ⟨tie, hk⟩)
  · have mono : binary64Value (k + 1) ≤ binary64Value lo := binary64Value_strictMono.monotone higher
    refine iff_of_true ?_ (by linarith)
    split_ifs <;> omega

end RoundsTo

/-! ## Infinity -/

/-- The bound from which on numbers round to infinity: half a unit above the largest finite number. -/
def overflowBound : ℚ := ((2 ^ 54 - 1 : Nat) : ℚ) * 2 ^ (970 : ℕ)

theorem binary64Value_around_infinity :
    binary64Value (infinityBits - 1) + binary64Value (infinityBits - 1 + 1) = 2 * overflowBound := by
  have largest : infinityBits - 1 = 2045 * 2 ^ 52 + (2 ^ 53 - 1) := by decide
  have infinity : infinityBits - 1 + 1 = 2045 * 2 ^ 52 + 2 ^ 53 := by decide
  have unit : (2 : ℚ) ^ (((2045 : ℕ) : ℤ) - 1074) = 2 ^ 970 * 2 := (zpow_natCast (2 : ℚ) 971).trans (pow_succ 2 970)
  rw [infinity, largest, binary64Value_of_significand (.inr (by norm_num)) (by norm_num),
    binary64Value_of_significand (.inr (by norm_num)) le_rfl, overflowBound, unit]
  generalize (2 : ℚ) ^ 970 = half_unit
  push_cast
  ring

theorem RoundsTo.nearestBinary64 {x : ℚ} {b : ℕ} (h : RoundsTo x b) : NearestBinary64 x (min b infinityBits) := by
  refine ⟨min_le_right .., fun finite c _ => ?_, ?_⟩
  · rw [min_eq_left (le_of_lt (lt_of_not_ge fun hb => absurd (min_eq_right hb) finite.ne))]
    exact h.nearest c
  · have reaches := h.succ_le_iff (k := infinityBits - 1) (by decide)
    rw [binary64Value_around_infinity, mul_le_mul_iff_right₀ two_pos] at reaches
    exact min_eq_right_iff.trans reaches

theorem nearestBinary64_infinity {x : ℚ} (h : overflowBound ≤ x) : NearestBinary64 x infinityBits :=
  ⟨le_rfl, fun finite => absurd finite (lt_irrefl _), iff_of_true rfl h⟩

/-- What is under half the least positive number rounds to zero. -/
theorem nearestBinary64_zero {x : ℚ} (hx : 0 ≤ x) (h : 2 * x < 2 ^ (-1074 : ℤ)) : NearestBinary64 x 0 := by
  have zero : binary64Value 0 = 0 := by simp [binary64Value]
  have least : binary64Value (0 + 1) = 2 ^ (-1074 : ℤ) := by simp [binary64Value]
  have rounds : RoundsTo x 0 := by
    refine ⟨0, by rwa [zero], by rw [least]; linarith, ?_⟩
    rw [if_neg]
    rw [zero, least]
    rintro (nearer | ⟨tie, -⟩) <;> linarith
  simpa using rounds.nearestBinary64

/-! ## Rounding a ratio -/

/-- A power with its exponent split into what multiplies and what divides. -/
theorem pow_toNat_eq {a : ℚ} (ha : a ≠ 0) (z : ℤ) : a ^ z.toNat = a ^ z * a ^ (-z).toNat := by
  rw [← zpow_natCast, ← zpow_natCast, ← zpow_add₀ ha]
  congr 1
  omega

theorem roundHalfEven_eq {n d : ℕ} (hd : 0 < d) :
    roundHalfEven n d =
      if ((n / d : ℕ) : ℚ) + ((n / d : ℕ) + 1) < 2 * ((n : ℚ) / d) ∨
        (((n / d : ℕ) : ℚ) + ((n / d : ℕ) + 1) = 2 * ((n : ℚ) / d) ∧ n / d % 2 = 1) then n / d + 1 else n / d := by
  have hd' : (0 : ℚ) < d := Nat.cast_pos.mpr hd
  have parts : (n : ℚ) = d * (n / d : ℕ) + (n % d : ℕ) := by exact_mod_cast (Nat.div_add_mod n d).symm
  have above : ((n / d : ℕ) : ℚ) + ((n / d : ℕ) + 1) < 2 * ((n : ℚ) / d) ↔ d < 2 * (n % d) := by
    rw [mul_div_assoc', lt_div_iff₀ hd', ← Nat.cast_lt (α := ℚ)]
    push_cast
    constructor <;> intro h <;> linarith
  have tie : ((n / d : ℕ) : ℚ) + ((n / d : ℕ) + 1) = 2 * ((n : ℚ) / d) ↔ 2 * (n % d) = d := by
    rw [mul_div_assoc', eq_div_iff hd'.ne', ← Nat.cast_inj (R := ℚ)]
    push_cast
    constructor <;> intro h <;> linarith
  rw [roundHalfEven]
  simp only [above, tie]

/-- A comparison of a ratio with a power of two, in natural numbers. -/
theorem scaled_le_iff {p q : ℕ} (hq : 0 < q) (z : ℤ) :
    q * 2 ^ z.toNat ≤ p * 2 ^ (-z).toNat ↔ (2 : ℚ) ^ z ≤ (p : ℚ) / q := by
  have scale_pos : (0 : ℚ) < 2 ^ (-z).toNat := by positivity
  rw [le_div_iff₀ (Nat.cast_pos.mpr hq), ← Nat.cast_le (α := ℚ)]
  push_cast
  rw [pow_toNat_eq two_ne_zero z, ← mul_assoc, mul_le_mul_iff_left₀ scale_pos, mul_comm]

theorem two_pow_log2_le {n : ℕ} (h : 0 < n) : (2 : ℚ) ^ (n.log2 : ℤ) ≤ n := by
  rw [zpow_natCast]
  exact_mod_cast Nat.log2_self_le h.ne'

theorem lt_two_pow_log2_succ (n : ℕ) : (n : ℚ) < 2 ^ ((n.log2 : ℤ) + 1) := by
  have below : (n : ℚ) < 2 ^ (n.log2 + 1) := by exact_mod_cast Nat.lt_log2_self
  exact_mod_cast below

/-- `2^L ≤ p/q < 2^(L+1)` for `L = floorLog2 p q`. -/
theorem floorLog2_spec {p q : ℕ} (hp : 0 < p) (hq : 0 < q) :
    (2 : ℚ) ^ floorLog2 p q ≤ (p : ℚ) / q ∧ (p : ℚ) / q < 2 ^ (floorLog2 p q + 1) := by
  have hq' : (0 : ℚ) < q := Nat.cast_pos.mpr hq
  have above : (p : ℚ) / q < 2 ^ ((p.log2 : ℤ) - q.log2 + 1) := by
    rw [div_lt_iff₀ hq']
    calc (p : ℚ) < 2 ^ ((p.log2 : ℤ) + 1) := lt_two_pow_log2_succ p
      _ = 2 ^ ((p.log2 : ℤ) - q.log2 + 1) * 2 ^ (q.log2 : ℤ) := by
        rw [← zpow_add₀ two_ne_zero]
        congr 1
        ring
      _ ≤ 2 ^ ((p.log2 : ℤ) - q.log2 + 1) * q := mul_le_mul_of_nonneg_left (two_pow_log2_le hq) (by positivity)
  have below : (2 : ℚ) ^ ((p.log2 : ℤ) - q.log2 - 1) ≤ (p : ℚ) / q := by
    rw [le_div_iff₀ hq']
    calc (2 : ℚ) ^ ((p.log2 : ℤ) - q.log2 - 1) * q
        ≤ 2 ^ ((p.log2 : ℤ) - q.log2 - 1) * 2 ^ ((q.log2 : ℤ) + 1) :=
          mul_le_mul_of_nonneg_left (lt_two_pow_log2_succ q).le (by positivity)
      _ = 2 ^ (p.log2 : ℤ) := by
        rw [← zpow_add₀ two_ne_zero]
        congr 1
        ring
      _ ≤ p := two_pow_log2_le hp
  rw [floorLog2]
  simp only [scaled_le_iff hq]
  split_ifs with reached
  · exact ⟨reached, above⟩
  · rw [sub_add_cancel]
    exact ⟨below, not_le.mp reached⟩

theorem ulpExponent_spec (p q : ℕ) :
    floorLog2 p q ≤ ulpExponent p q + 52 ∧
      (ulpExponent p q = -1074 ∨ (-1074 < ulpExponent p q ∧ ulpExponent p q + 52 = floorLog2 p q)) := by
  rw [ulpExponent]
  omega

/-- In units of the last place a ratio has fewer than 2^53 units, and at least 2^52 but at the subnormals' scale. -/
theorem units_bounds {p q : ℕ} (hp : 0 < p) (hq : 0 < q) :
    (p : ℚ) / q / 2 ^ ulpExponent p q < 2 ^ 53 ∧
      (ulpExponent p q = -1074 ∨ (-1074 < ulpExponent p q ∧ 2 ^ 52 ≤ (p : ℚ) / q / 2 ^ ulpExponent p q)) := by
  obtain ⟨low, high⟩ := floorLog2_spec hp hq
  obtain ⟨capped, scale⟩ := ulpExponent_spec p q
  have unit_pos : (0 : ℚ) < 2 ^ ulpExponent p q := by positivity
  constructor
  · rw [div_lt_iff₀ unit_pos, ← zpow_natCast, ← zpow_add₀ two_ne_zero]
    exact high.trans_le (zpow_le_zpow_right₀ one_le_two (by omega))
  · refine scale.imp_right fun ⟨normal, exponent⟩ => ⟨normal, ?_⟩
    rw [le_div_iff₀ unit_pos, ← zpow_natCast, ← zpow_add₀ two_ne_zero, Nat.cast_ofNat, add_comm, exponent]
    exact low

/-- The rounded number of units, with its scale, is the encoding that `x` rounds to. -/
theorem roundsTo_of_units {x : ℚ} {n d e : ℕ} (hd : 0 < d) (hx : x = (n : ℚ) / d * 2 ^ ((e : ℤ) - 1074))
    (few : (n : ℚ) / d < 2 ^ 53) (lead : e = 0 ∨ (2 : ℚ) ^ 52 ≤ (n : ℚ) / d) :
    RoundsTo x (e * 2 ^ 52 + roundHalfEven n d) := by
  have hd' : (0 : ℚ) < d := Nat.cast_pos.mpr hd
  have unit_pos : (0 : ℚ) < 2 ^ ((e : ℤ) - 1074) := by positivity
  have few_units : n / d < 2 ^ 53 := by
    rw [Nat.div_lt_iff_lt_mul hd]
    exact_mod_cast (div_lt_iff₀ hd').mp few
  have lead_units : e = 0 ∨ 2 ^ 52 ≤ n / d := lead.imp_right fun h => by
    rw [Nat.le_div_iff_mul_le hd]
    exact_mod_cast (le_div_iff₀ hd').mp h
  have value := binary64Value_of_significand lead_units few_units.le
  have next_value := binary64Value_of_significand (lead_units.imp_right (Nat.le_succ_of_le ·)) few_units
  have floor_le : ((n / d : ℕ) : ℚ) ≤ (n : ℚ) / d := Nat.cast_div_le
  have lt_next : (n : ℚ) / d < ((n / d + 1 : ℕ) : ℚ) := by
    rw [div_lt_iff₀' hd']
    exact_mod_cast Nat.lt_mul_div_succ n hd
  have same_parity : (e * 2 ^ 52 + n / d) % 2 = n / d % 2 := by omega
  refine ⟨e * 2 ^ 52 + n / d, ?low, ?high, ?choice⟩
  case low =>
    rw [value, hx]
    exact mul_le_mul_of_nonneg_right floor_le unit_pos.le
  case high =>
    rw [Nat.add_assoc, next_value, hx]
    exact mul_lt_mul_of_pos_right lt_next unit_pos
  case choice =>
    rw [roundHalfEven_eq hd, same_parity, Nat.add_assoc, value, next_value, hx, ← add_mul, ← mul_assoc]
    simp only [mul_lt_mul_iff_left₀ unit_pos, mul_left_inj' unit_pos.ne', Nat.succ_eq_add_one, Nat.cast_add_one]
    split_ifs <;> rfl

theorem roundRatio_nearest {p q : ℕ} (hp : 0 < p) (hq : 0 < q) : NearestBinary64 ((p : ℚ) / q) (roundRatio p q) := by
  obtain ⟨few, scale⟩ := units_bounds hp hq
  rw [roundRatio, if_neg hp.ne']
  set g := ulpExponent p q
  have scale_eq : (((g + 1074).toNat : ℕ) : ℤ) - 1074 = g := by omega
  have units : ((p * 2 ^ (-g).toNat : ℕ) : ℚ) / (q * 2 ^ g.toNat : ℕ) = (p : ℚ) / q / 2 ^ g := by
    push_cast
    rw [pow_toNat_eq two_ne_zero g]
    field_simp
  refine (roundsTo_of_units (by positivity) ?value ?few ?lead).nearestBinary64
  case value => rw [units, scale_eq, div_mul_cancel₀ _ (by positivity)]
  case few => rwa [units]
  case lead =>
    rw [units]
    exact scale.imp (fun subnormal => by omega) And.right

/-! ## Rounding a decimal number -/

theorem two_pow_le_ten_pow : (2 : ℚ) ^ 1203 ≤ 10 ^ 401 :=
  calc (2 : ℚ) ^ 1203 = (2 ^ 3) ^ 401 := pow_mul 2 3 401
    _ ≤ 10 ^ 401 := pow_le_pow_left₀ (by norm_num) (by norm_num) 401

theorem overflowBound_le : overflowBound ≤ 10 ^ (401 : ℤ) :=
  calc overflowBound ≤ 2 ^ 54 * 2 ^ 970 := mul_le_mul_of_nonneg_right (by norm_num) (by positivity)
    _ = 2 ^ 1024 := (pow_add 2 54 970).symm
    _ ≤ 2 ^ 1203 := pow_le_pow_right₀ one_le_two (by norm_num)
    _ ≤ 10 ^ 401 := two_pow_le_ten_pow
    _ = 10 ^ (401 : ℤ) := (zpow_natCast 10 401).symm

/-- A decimal number whose scale is over 400 is too large for binary64. -/
theorem overflowBound_le_decimal {n : ℕ} (hn : n ≠ 0) {k : ℤ} (hk : 400 < k) : overflowBound ≤ (n : ℚ) * 10 ^ k :=
  calc overflowBound ≤ 10 ^ (401 : ℤ) := overflowBound_le
    _ ≤ 10 ^ k := zpow_le_zpow_right₀ (by norm_num) hk
    _ ≤ n * 10 ^ k := le_mul_of_one_le_left (by positivity) (Nat.one_le_cast.mpr (Nat.pos_of_ne_zero hn))

/-- A decimal number of `b` bits whose scale is under `-400 - b` is under half the least positive number. -/
theorem decimal_lt_least {n : ℕ} {k : ℤ} (hk : k + (Nat.log2 n + 1 : ℕ) < -400) :
    2 * ((n : ℚ) * 10 ^ k) < 2 ^ (-1074 : ℤ) := by
  have digits : (n : ℚ) ≤ 10 ^ ((Nat.log2 n + 1 : ℕ) : ℤ) := by
    rw [zpow_natCast]
    calc (n : ℚ) ≤ 2 ^ (Nat.log2 n + 1) := by exact_mod_cast Nat.lt_log2_self.le
      _ ≤ 10 ^ (Nat.log2 n + 1) := pow_le_pow_left₀ (by norm_num) (by norm_num) _
  calc 2 * ((n : ℚ) * 10 ^ k)
      ≤ 2 * (10 ^ ((Nat.log2 n + 1 : ℕ) : ℤ) * 10 ^ k) := by gcongr
    _ = 2 * 10 ^ (k + (Nat.log2 n + 1 : ℕ)) := by rw [← zpow_add₀ (by norm_num), add_comm]
    _ ≤ 2 * 10 ^ (-401 : ℤ) := by
      gcongr
      · norm_num
      · omega
    _ ≤ 2 * 2 ^ (-1203 : ℤ) := by
      rw [zpow_neg, zpow_neg]
      gcongr
      exact two_pow_le_ten_pow
    _ = 2 ^ (-1202 : ℤ) := (zpow_one_add₀ two_ne_zero (-1203)).symm
    _ < 2 ^ (-1074 : ℤ) := zpow_lt_zpow_right₀ one_lt_two (by norm_num)

theorem roundDecimal_nearest (n : ℕ) (k : ℤ) : NearestBinary64 ((n : ℚ) * 10 ^ k) (roundDecimal n k) := by
  rw [roundDecimal]
  split_ifs with hn large small
  · subst hn
    exact nearestBinary64_zero (by simp) (by simp only [Nat.cast_zero, zero_mul, mul_zero]; positivity)
  · exact nearestBinary64_infinity (overflowBound_le_decimal hn large)
  · exact nearestBinary64_zero (by positivity) (decimal_lt_least small)
  · have ratio : ((n * 10 ^ k.toNat : ℕ) : ℚ) / (10 ^ (-k).toNat : ℕ) = n * 10 ^ k := by
      push_cast
      rw [pow_toNat_eq (by norm_num) k]
      field_simp
    exact ratio ▸ roundRatio_nearest (by positivity) (by positivity)

end Sys2Proof.Machine
end

section
/-! The statement on `ParseDec` (spec/43_seed_engine.md R102; the format of binary64 is log entry 12): the digits and the
scale that a numeral's text is read as are those of its magnitude, whose rounding and sign stand in separate bits. -/

namespace Sys2Proof.Machine

/-! ## The number that a numeral spells (R101, R102) -/

theorem digitsValue_append_digit (b : Bytes) (x : Fin 10) :
    digitsValue (b ++ [BitVec.ofNat 8 (0x30 + x.val)]) = 10 * digitsValue b + x.val := by
  have digit_value : ∀ x : Fin 10, (BitVec.ofNat 8 (0x30 + x.val)).toNat - 0x30 = x.val := by decide
  rw [digitsValue, List.foldl_append, List.foldl_cons, List.foldl_nil, digit_value]
  rfl

theorem digitNumber_append_digit (ds : List (Fin 10)) (x : Fin 10) :
    digitNumber (ds ++ [x]) = 10 * digitNumber ds + x.val := by
  rw [digitNumber, List.reverse_append, List.reverse_singleton, List.singleton_append, List.map_cons, Nat.ofDigits_cons,
    Nat.add_comm]
  rfl

theorem digitsValue_digitText (ds : List (Fin 10)) : digitsValue (digitText ds) = digitNumber ds := by
  induction ds using List.reverseRecOn with
  | nil => rfl
  | append_singleton ds x ih =>
    rw [digitText_append, digitNumber_append_digit, ← ih]
    exact digitsValue_append_digit (digitText ds) x

theorem isMinus_signText (sg : Option Bool) : isMinus (signText sg) = decide (sg = some true) := by
  rcases sg with _ | _ | _ <;> rfl

theorem decimalDigits_parts (n : Numeral) : decimalDigits n.parts = digitNumber (n.whole ++ n.fractionDigits) := by
  rw [decimalDigits, ← n.digitText_decimal, digitsValue_digitText]

theorem exponentValue_exponentText (n : Numeral) : exponentValue (exponentText n.exponent) = n.power := by
  rw [Numeral.power]
  cases n.exponent with
  | none => rfl
  | some e =>
    have body : splitSign ((exponentText (some e)).drop 1) = (signText e.sign, digitText e.digits) :=
      splitSign_exponentDigits e
    rw [exponentValue, body]
    simp only [isMinus_signText, digitsValue_digitText, decide_eq_true_eq]

theorem fraction_length (n : Numeral) : (n.parts.fraction.drop 1).length = n.fractionDigits.length := by
  have decimal := congrArg List.length n.digitText_decimal
  simpa [Numeral.parts, digitText] using decimal.symm

theorem decimalScale_parts (n : Numeral) : decimalScale n.parts = n.power - (n.fractionDigits.length : ℤ) := by
  rw [decimalScale, fraction_length, ← exponentValue_exponentText]
  rfl

/-! ## The sign and the class of an encoding -/

/-- The word of `ParseDec`: a magnitude and a sign (R102). -/
def signedBits (minus : Bool) (bits : ℕ) : Word :=
  if minus then BitVec.ofNat 64 bits ||| (1#64 <<< 63) else BitVec.ofNat 64 bits

theorem signedBits_magnitude (minus : Bool) {bits : ℕ} (h : bits < 2 ^ 63) :
    (signedBits minus bits).toNat % 2 ^ 63 = bits := by
  have magnitude : (signedBits minus bits).setWidth 63 = BitVec.ofNat 63 bits := by
    have low_bits : (BitVec.ofNat 64 bits).setWidth 63 = BitVec.ofNat 63 bits := BitVec.setWidth_ofNat_of_le (by decide) bits
    have sign_bit : (1#64 <<< 63).setWidth 63 = 0#63 := by decide
    cases minus with
    | false => exact low_bits
    | true => exact (BitVec.setWidth_or ..).trans (by rw [low_bits, sign_bit, BitVec.or_zero])
  rw [← BitVec.toNat_setWidth, magnitude, BitVec.toNat_ofNat, Nat.mod_eq_of_lt h]

theorem signedBits_sign (minus : Bool) {bits : ℕ} (h : bits < 2 ^ 63) : (signedBits minus bits).getLsbD 63 = minus := by
  have no_sign : (BitVec.ofNat 64 bits).getLsbD 63 = false := by
    rw [BitVec.getLsbD_ofNat, Nat.testBit_lt_two_pow h, Bool.and_false]
  cases minus with
  | false => exact no_sign
  | true => exact (BitVec.getLsbD_or ..).trans (by rw [no_sign]; rfl)

/-- An encoding is finite when its magnitude is below that of infinity; no NaN is among the values of `ParseDec`. -/
theorem isFinite64_eq {v : Word} (h : v.toNat % 2 ^ 63 ≤ infinityBits) :
    isFinite64 v = decide (v.toNat % 2 ^ 63 < infinityBits) := by
  have infinity : infinityBits = 0x7FF * 2 ^ 52 := rfl
  have exponent : (v.extractLsb' 52 11).toNat = v.toNat % 2 ^ 63 / 2 ^ 52 := by
    rw [BitVec.extractLsb'_toNat, Nat.shiftRight_eq_div_pow]
    omega
  have all_ones : v.extractLsb' 52 11 = 0x7FF#11 ↔ v.toNat % 2 ^ 63 / 2 ^ 52 = 0x7FF := by
    rw [← BitVec.toNat_inj, exponent]
    rfl
  rw [isFinite64, Bool.eq_iff_iff, bne_iff_ne, ne_eq, all_ones, decide_eq_true_eq]
  omega

/-- `ParseDec` of a numeral's text: the rounded magnitude and the numeral's sign. -/
theorem parseDecRef_text {n : Numeral} (h : n.valid = true) :
    parseDecRef n.text = signedBits (decide (n.sign = some true))
      (roundDecimal (digitNumber (n.whole ++ n.fractionDigits)) (n.power - (n.fractionDigits.length : ℤ))) := by
  have sign : isMinus n.parts.sign = decide (n.sign = some true) := isMinus_signText n.sign
  rw [← decimalDigits_parts, ← decimalScale_parts, ← sign, ← tokenParts_text h]
  rfl

/-! ## The obligation -/

/-- Settles O60: the two roundings, and the second for the digits and the scale that a numeral spells. -/
theorem roundingIsToNearestEven : Obligations.RoundingIsToNearestEven := by
  refine ⟨fun p q => roundRatio_nearest, roundDecimal_nearest, fun n hn => ?_⟩
  have nearest := roundDecimal_nearest (digitNumber (n.whole ++ n.fractionDigits))
    (n.power - (n.fractionDigits.length : ℤ))
  have fits := nearest.1.trans_lt (by decide : infinityBits < 2 ^ 63)
  rw [parseDecRef_text hn]
  have magnitude := signedBits_magnitude (decide (n.sign = some true)) fits
  refine ⟨?_, signedBits_sign _ fits, isFinite64_eq (magnitude.trans_le nearest.1)⟩
  rw [magnitude]
  exact nearest

end Sys2Proof.Machine
end

section
/-! The statement on the padding of SHA-256 (spec/44_hash.md R121), with the lemmas on the big-endian encoding and on the
number of zero bytes. -/

namespace Sys2Proof.Machine

/-! ## The big-endian encoding -/

/-- A string read from its last byte on is its little-endian value. -/
theorem fromBe_reverse (b : Bytes) : fromBe b.reverse = fromLe b := by
  rw [fromBe, List.foldl_reverse]
  induction b with
  | nil => rfl
  | cons x rest ih => rw [List.foldr_cons, ih, fromLe, Nat.add_comm]

/-- Reading a big-endian encoding back gives the value modulo its width. -/
theorem fromBe_beBytes (n v : Nat) : fromBe (beBytes n v) = v % 256 ^ n := by
  rw [beBytes, fromBe_reverse, fromLe_leBytes]

/-! ## The number of zero bytes -/

/-- The `z` of R121 for a message of `n` bytes, as `shaPad` computes it (see `shaPad_eq`). -/
def shaZeros (n : Nat) : Nat := (64 - (n + 9) % 64) % 64

theorem shaPad_eq (m : Bytes) :
    shaPad m = m ++ [0x80#8] ++ List.replicate (shaZeros m.length) 0#8 ++ beBytes 8 (8 * m.length) := rfl

theorem shaZeros_lt (n : Nat) : shaZeros n < 64 := Nat.mod_lt _ (by decide)

/-- The zero bytes complete the message, the byte 0x80 and the 8 bytes of the length to whole blocks. -/
theorem shaZeros_completes_block (n : Nat) : (n + 9 + shaZeros n) % 64 = 0 := by
  unfold shaZeros
  omega

/-- `z = (55 − n) mod 64`: the multiple of 64 added before the subtraction keeps it from being cut off at 0. -/
theorem shaZeros_eq_sub_mod (n : Nat) : shaZeros n = (55 + 64 * (n / 64 + 1) - n) % 64 := by
  have below := shaZeros_lt n
  have whole := shaZeros_completes_block n
  omega

theorem shaPad_length (m : Bytes) : (shaPad m).length = m.length + 9 + shaZeros m.length := by
  simp only [shaPad_eq, List.length_append, List.length_singleton, List.length_replicate, beBytes_length]
  omega

/-! ## The obligation -/

/-- Settles O59: the bound on `n` is what makes the length in bits fit the 8 bytes of its encoding. -/
theorem hashPadding : Obligations.HashPadding := by
  intro m message_bound
  have whole_blocks : (shaPad m).length % 64 = 0 := by rw [shaPad_length, shaZeros_completes_block]
  have bits_fit : 8 * m.length < 256 ^ 8 := by omega
  have read_back : fromBe (beBytes 8 (8 * m.length)) = 8 * m.length := by rw [fromBe_beBytes, Nat.mod_eq_of_lt bits_fit]
  exact ⟨shaZeros m.length, shaZeros_lt _, shaPad_eq m, whole_blocks, shaZeros_eq_sub_mod _, read_back⟩

end Sys2Proof.Machine
end

section
/-! The statements on errors (spec/60_exceptions.md R125, R126, R128, R130). A command ends in one of two ways: one of its
checks fails and only `ERR` tells so, or no check fails and it ends with OK. -/

namespace Sys2Proof.Machine

/-! ## The checks of a command (R126) -/

/-- One of the command's checks fails: the causes of INVALID_ARGUMENT. Four commands have no check. -/
def CheckFails (c : Cfg) (s : State) : Instr → Prop
  | .reseed => c.bufCap < s.lenA.toNat ∨ c.bufCap < s.lenB.toNat
  | .generate ov _ len => (len ≠ 0 ∧ ov = false) ∨ c.bufCap < len ∨ c.bufCap < s.lenB.toNat
  | .extract dv ov => dv = false ∨ s.lenA = 0#32 ∨ ov = false ∨ c.bufCap < s.lenA.toNat
  | .extractU64 dv => dv = false ∨ s.lenA = 0#32 ∨ c.bufCap < s.lenA.toNat
  | .instantiate | .nextU64 | .zeroize | .mix => False

/-- A failed check changes nothing but `ERR` and `BUSY`, and nothing else makes a command end with an error (R125). -/
theorem command_checkFails_or_ok {c : Cfg} {i : Instr} {s t : State} (h : command c i s = .next t) :
    (CheckFails c s i ∧ t = { s with err := .invalidArgument, busy := false }) ∨ (¬CheckFails c s i ∧ t.err = .ok) := by
  cases i with
  | instantiate => obtain rfl := instantiateCmd_eq_next.mp h; exact .inr ⟨id, rfl⟩
  | reseed =>
    obtain failed | ⟨fits, rfl⟩ := reseedCmd_eq_next h
    · exact .inl failed
    · exact .inr ⟨by simpa [CheckFails] using fits, rfl⟩
  | generate ov pr len =>
    obtain failed | ⟨⟨has_output, fits⟩, rfl⟩ := generateCmd_eq_next h
    · exact .inl failed
    · exact .inr ⟨not_or.mpr ⟨has_output, by simpa using fits⟩, rfl⟩
  | nextU64 => obtain rfl := nextU64Cmd_eq_next.mp h; exact .inr ⟨id, rfl⟩
  | zeroize => obtain rfl := zeroizeCmd_eq_next.mp h; exact .inr ⟨id, rfl⟩
  | mix => obtain rfl := mixCmd_eq_next.mp h; exact .inr ⟨id, rfl⟩
  | extract dv ov =>
    obtain failed | ⟨valid, rfl⟩ := extractCmd_eq_next h
    · exact .inl failed
    · exact .inr ⟨by simpa [CheckFails] using valid, rfl⟩
  | extractU64 dv =>
    obtain failed | ⟨valid, rfl⟩ := extractU64Cmd_eq_next h
    · exact .inl failed
    · exact .inr ⟨by simpa [CheckFails] using valid, rfl⟩

/-! ## Illegal words (R54, R128) -/

theorem runCommand_of_no_row {w : Word} (h : ∀ r ∈ opcodeRows, w &&& r.mask ≠ r.code) (s : State) :
    runCommand w s = .next { s with err := .illegalCommand, busy := false } := by
  obtain ⟨-, -, illegal_of_no_row⟩ := decoderFollowsOpcodeTable w
  obtain ⟨e, illegal⟩ := illegal_of_no_row h
  rw [runCommand, illegal]
  rfl

/-! ## The obligations -/

/-- Settles O24: `CheckFails` holds of exactly the causes that the statement lists for each command. -/
theorem errorCauses : Obligations.ErrorCauses := by
  intro c i s t h
  obtain ⟨fails, rfl⟩ | ⟨passes, ok⟩ := command_checkFails_or_ok h
  · cases i with
    | reseed | generate | extract | extractU64 => exact (if_pos fails).symm
    | instantiate | nextU64 | zeroize | mix => exact fails.elim
  · rw [ok]
    cases i with
    | reseed | generate | extract | extractU64 => exact (if_neg passes).symm
    | instantiate | nextU64 | zeroize | mix => rfl

/-- Settles O23: an illegal word and a failed check post their error only; every other command ends with OK. -/
theorem failedCommandChangesOnlyErr : Obligations.FailedCommandChangesOnlyErr := by
  intro w s
  obtain ⟨i, -, hrun⟩ | ⟨e, -, hrun⟩ := runCommand_cases w s
  · obtain ⟨t, ht⟩ := command_goes_on cfgRef i s
    obtain ⟨_, -, -, stores⟩ := command_storesOnly ht
    refine ⟨t, hrun.trans ((exec_eq_command i s).trans ht), stores.busy, ?_⟩
    obtain ⟨-, rfl⟩ | ⟨-, ok⟩ := command_checkFails_or_ok ht
    · exact .inr rfl
    · exact .inl ok
  · exact ⟨_, hrun, rfl, .inr rfl⟩

/-- Settles O5: `BUSY`, which the write of `CMD` sets and the error clears, was clear before. -/
theorem illegalWordPostsErrorOnly : Obligations.IllegalWordPostsErrorOnly := by
  intro s rest w hbusy hscript no_row
  rw [step_wr_cmd hbusy hscript, runCommand_of_no_row no_row, ← hbusy]

/-- Settles O7: the machine's own empty-script case. -/
theorem stepIdlesWithoutHostAction : Obligations.StepIdlesWithoutHostAction := fun _ => step_of_script_nil

end Sys2Proof.Machine
end

section
/-! The statements on the reset and on the collisions of the input encoding (spec/70_reset_and_hazards.md R140, R148, R154).
The derivation sees a byte string only as its lanes, so strings of the same lanes derive the same; an empty string is not
absorbed, so a single string derives the same in either role. After reset every operand is 0, so the first command's result
is a constant of `CFG_REF`. -/

namespace Sys2Proof.Machine

/-! ## Zero bytes at the end of a string (R76) -/

theorem getD_append_zeros (b : Bytes) (n i : Nat) : (b ++ List.replicate n 0).getD i 0 = b.getD i 0 := by
  rcases Nat.lt_or_ge i b.length with inside | beyond
  · exact List.getD_append _ _ _ _ inside
  · rw [List.getD_append_right _ _ _ _ beyond, List.getD_eq_default b 0 beyond,
      List.getD_eq_getElem?_getD, List.getElem?_getD_replicate_default_eq]

/-- A lane takes bytes beyond the end as 0, so appended zero bytes may add lanes but change none. -/
theorem lanes_getD_append_zeros (b : Bytes) (n q : Nat) :
    (lanes (b ++ List.replicate n 0)).getD q 0 = (lanes b).getD q 0 := by
  have same_byte (t : Nat) (ht : t ∈ List.range 8) :
      (((b ++ List.replicate n 0).drop (8 * q)).take 8).getD t 0 = ((b.drop (8 * q)).take 8).getD t 0 := by
    rw [getD_take_drop _ _ (List.mem_range.mp ht), getD_take_drop _ _ (List.mem_range.mp ht), getD_append_zeros]
  apply BitVec.eq_of_toNat_eq
  rw [lanes_getD, lanes_getD, wordOfLe_toNat (List.length_take_le ..), wordOfLe_toNat (List.length_take_le ..)]
  exact congrArg List.sum (List.map_congr_left fun t ht => by rw [same_byte t ht])

/-- Zero bytes that end in the last lane add none. -/
theorem lanes_append_zeros {b : Bytes} {n : Nat} (partial_lane : b.length % 8 ≠ 0) (same_lane : b.length % 8 + n ≤ 8) :
    lanes (b ++ List.replicate n 0) = lanes b := by
  have same_count : (lanes (b ++ List.replicate n 0)).length = (lanes b).length := by
    rw [lanes_length, lanes_length, List.length_append, List.length_replicate]
    omega
  refine List.ext_getElem same_count fun q hq hq' => ?_
  rw [← List.getD_eq_getElem _ 0 hq, ← List.getD_eq_getElem _ 0 hq', lanes_getD_append_zeros]

/-! ## What the derivation absorbs (R77, R79) -/

@[simp] theorem absorbIfAny_nil (c : Cfg) (k pd : Quad Word) : absorbIfAny c k pd [] = pd := if_pos rfl

theorem absorbIfAny_congr {b b' : Bytes} (hb : b ≠ []) (hb' : b' ≠ []) (h : lanes b' = lanes b) (c : Cfg)
    (k pd : Quad Word) : absorbIfAny c k pd b' = absorbIfAny c k pd b := by
  rw [absorbIfAny, absorbIfAny, if_neg hb, if_neg hb', absorb, absorb, h]

theorem makePD_role_symmetry (c : Cfg) (k : Quad Word) (x : Bytes) : makePD c k x [] = makePD c k [] x := by
  simp only [makePD, absorbIfAny_nil]

/-! ## RESEED (R91) -/

theorem exec_reseed (s : State) :
    exec .reseed s = .next { s with drbg := reseedDrbg cfgRef s, err := .ok, busy := false } :=
  (exec_eq_command .reseed s).trans (reseedCmd_of_fits ⟨word32_le_bufCap s.lenA, word32_le_bufCap s.lenB⟩)

theorem inputA_of_lenA_zero {s : State} (h : s.lenA = 0) : inputA s = [] := by
  rw [inputA, h]
  rfl

theorem inputB_of_lenB_zero {s : State} (h : s.lenB = 0) : inputB s = [] := by
  rw [inputB, h]
  rfl

/-- The bytes of `A` in one state as those of `B` in another. -/
theorem inputB_eq_inputA {s t : State} (hlen : t.lenB = s.lenA)
    (hbytes : ∀ a, a < s.lenA.toNat → readByte t .b a = readByte s .a a) : inputB t = inputA s := by
  rw [inputB, hlen, memRead_zero, inputA_eq_map]
  exact List.map_congr_left fun a ha => hbytes a (List.mem_range.mp ha)

/-! ## The first command after reset (R154) -/

/-- The state after reset while its first command runs. -/
def State.resetRunning : State := { State.reset with busy := true }

theorem step_reset_issue {i : Instr} (hi : i.wellFormed = true) :
    step { State.reset with script := [issue i] } = exec i State.resetRunning :=
  step_issue (s := { State.reset with script := [issue i] }) hi rfl rfl

theorem regValue_reset {r : Reg} (h : r = .status ∨ r = .rsctr ∨ ∃ i, r = .res i) (v : Word) :
    regValue { State.reset with readData := v } r = 0 := by
  obtain rfl | rfl | ⟨i, rfl⟩ := h
  · have status_clear : statusWord State.reset = 0 := by decide
    exact status_clear
  · rfl
  · fin_cases i <;> rfl

theorem block_first_cfgRef : block cfgRef ⟨1, 0⟩ ⟨0, 0, 0, 0⟩ = 0xB586CBC959D2B50B#64 := by decide

theorem mix_zero_cfgRef : mix cfgRef 0 ⟨0, 0, 0, 0⟩ = 0x9C5703922E6AF32E#64 := by decide

/-- GENERATE of 8 bytes with no additional input leaves the bytes of its one block in OUT. -/
theorem memRead_generate_eight {s u : State} {pr : Bool} (hlenB : s.lenB = 0)
    (hu : exec (.generate true pr 8) s = .next u) :
    memRead u .out 0 8 = le64 (block cfgRef (vInc s.drbg.v) s.drbg.k) := by
  rw [exec_generate_of_valid (by decide) (.inr rfl), preUpdate_of_lenB_zero hlenB, stream_eight] at hu
  obtain rfl := Host.Outcome.next.inj hu
  have stored := StoresOnly.of_stored s (postUpdate cfgRef s.drbg 8) (le64 (block cfgRef (vInc s.drbg.v) s.drbg.k)) .ok
  simpa using stored.memRead_out

/-! ## The obligations -/

/-- Settles O51: the two strings have the same lanes, and neither is empty. -/
theorem zeroPaddingCollision : Obligations.ZeroPaddingCollision := by
  intro c k b x n hb same_lane partial_lane
  have absorbed (pd : Quad Word) : absorbIfAny c k pd (b ++ List.replicate n 0) = absorbIfAny c k pd b :=
    absorbIfAny_congr hb (List.append_ne_nil_of_left_ne_nil hb _) (lanes_append_zeros partial_lane same_lane) c k pd
  exact ⟨by simp only [makePD, absorbed], by simp only [makePD, absorbed]⟩

/-- Settles O52: the swapped state has the same string in the other role, and the empty string in its place. -/
theorem derivationRoleSymmetry : Obligations.DerivationRoleSymmetry := by
  refine ⟨makePD_role_symmetry, fun s t u swapped hlenB hbytes hu => ⟨_, exec_reseed t, ?_⟩⟩
  rw [exec_reseed] at hu
  obtain rfl := Host.Outcome.next.inj hu
  have same_drbg : t.drbg = s.drbg := by rw [swapped]
  have t_lenA : t.lenA = 0 := by rw [swapped]; exact hlenB
  have t_lenB : t.lenB = s.lenA := by rw [swapped]
  change reseedDrbg cfgRef t = reseedDrbg cfgRef s
  rw [reseedDrbg, reseedDrbg, same_drbg, inputA_of_lenA_zero t_lenA, inputB_of_lenB_zero hlenB,
    inputB_eq_inputA t_lenB hbytes, makePD_role_symmetry]

/-- Settles O15: the reset event is served in every state, and leaves buffers that list no byte. -/
theorem resetEventEffect : Obligations.ResetEventEffect := by
  intro s rest hscript
  refine ⟨_, (step_of_script_cons hscript).trans (serve_reset _), rfl, fun sp a => ?_⟩
  cases sp <;> rfl

/-- Settles O16, fact by fact, each from the result of its command at the reset values. -/
theorem factsFromReset : Obligations.FactsFromReset := by
  refine ⟨fun r v hr => ?reads, ?stream, ?extract, ?reseed, ?mix⟩
  case reads => exact ⟨_, step_rd rfl rfl, regValue_reset hr v⟩
  case stream =>
    obtain ⟨u, hu⟩ := command_goes_on cfgRef (.generate true false 8) State.resetRunning
    rw [← exec_eq_command] at hu
    have ht := nextU64Result State.resetRunning
    obtain ⟨same_drbg, -, -, -⟩ := nextU64IsGenerateOfEight _ _ u false rfl ht hu
    refine ⟨_, u, (step_reset_issue rfl).trans ht, (step_reset_issue (by decide)).trans hu, rfl,
      block_first_cfgRef, ?_, congrArg Drbg.k same_drbg, congrArg Drbg.v same_drbg⟩
    exact (memRead_generate_eight rfl hu).trans ((congrArg le64 block_first_cfgRef).trans (by decide))
  case extract =>
    obtain ⟨no_data, -⟩ := extractErrors State.resetRunning true true
    exact ⟨_, (step_reset_issue rfl).trans (no_data (.inr (.inl rfl))), rfl⟩
  case reseed =>
    exact ⟨_, (step_reset_issue rfl).trans (exec_reseed State.resetRunning), rfl, rfl⟩
  case mix =>
    obtain ⟨-, result⟩ := mixResult
    exact ⟨_, (step_reset_issue rfl).trans (result State.resetRunning), rfl, mix_zero_cfgRef⟩

end Sys2Proof.Machine
end
